-- ==== Sys2Proof/Word.lean ====
section
/-! DEFINITION. The word types of the PTU (00_scope.md section 4: address width 32 bits, coordinate width 16 bits,
command word 64 bits, response word 33 bits), and the 32-bit memory word seen lane by lane. -/

namespace Sys2Proof

/-- One byte of memory (R20: "A byte is 8 bits"); also a palette index (R6). -/
abbrev Byte := BitVec 8

/-- A framebuffer pixel, a coordinate field, the `data` field (R6, R41). -/
abbrev Half := BitVec 16

/-- A tile word, the `val` field of a response (R6, R15). -/
abbrev Word32 := BitVec 32

/-- A command word (R40, R41). -/
abbrev Command := BitVec 64

/-- A 32-bit word of memory as its four byte lanes, lane n = bits 8n+7 to 8n = the byte at word address + n (R22, R74).
A lane is `none` when that byte has been given no value since the last reset (R18), so that a read-modify-write can keep
it without naming a value for it (R77). -/
structure LaneWord where
  lane0 : Option Byte
  lane1 : Option Byte
  lane2 : Option Byte
  lane3 : Option Byte
deriving DecidableEq, Repr

/-- One response (R15, R49). -/
structure Response where
  err : Bool
  val : Word32
deriving DecidableEq, Repr

/-- The 33-bit response word: `err` in bit 32, `val` in bits 31:0 (R49). -/
def Response.word (r : Response) : BitVec 33 := BitVec.ofBool r.err ++ r.val

end Sys2Proof
end

