-- ==== Sys2Proof/Config.lean ====
section
/-! DEFINITION. What an implementation fixes (the five parameters, R4, R5), and the one free value of the model
(the contents of a byte that nothing has written since the last reset, R18). -/

namespace Sys2Proof

/-- The implementation parameters (R4): "fixed when the hardware is built and never changed afterwards". -/
structure Params where
  fbW : Nat
  fbH : Nat
  fbBase : Nat
  tileBase : Nat
  ntiles : Nat
deriving DecidableEq, Repr

namespace Params

/-- Number of framebuffer pixels. -/
def pixels (p : Params) : Nat := p.fbW * p.fbH

/-- FB_BYTES (R5). -/
def fbBytes (p : Params) : Nat := 2 * p.fbW * p.fbH

/-- TILE_BYTES (R5). -/
def tileBytes (p : Params) : Nat := 64 * p.ntiles

/-- The constraints of R4 and R5. A parameter set that breaks one "is not a PTU". -/
abbrev Valid (p : Params) : Prop :=
  (1 ≤ p.fbW ∧ p.fbW ≤ 32767) ∧ (1 ≤ p.fbH ∧ p.fbH ≤ 32767) ∧
  p.fbBase % 4 = 0 ∧ p.tileBase % 4 = 0 ∧ (1 ≤ p.ntiles ∧ p.ntiles ≤ 16) ∧
  p.fbBase + p.fbBytes ≤ 2 ^ 32 ∧ p.tileBase + p.tileBytes ≤ 2 ^ 32 ∧
  (p.fbBase + p.fbBytes ≤ p.tileBase ∨ p.tileBase + p.tileBytes ≤ p.fbBase)

/-- The reference configuration REF of 00_scope.md section 4 (D10, D11; the spec takes its numbers from general knowledge).
It is the parameter set of `State.reset` only (log 2); no statement about a command rests on it. -/
def ref : Params where
  fbW := 240
  fbH := 160
  fbBase := 0x06000000
  tileBase := 0x03000000
  ntiles := 8

/-- Address `a` is a byte of the framebuffer region (R21). -/
abbrev inFramebuffer (p : Params) (a : Nat) : Prop := p.fbBase ≤ a ∧ a < p.fbBase + p.fbBytes

/-- Address `a` is a byte of the tile region (R21). -/
abbrev inTiles (p : Params) (a : Nat) : Prop := p.tileBase ≤ a ∧ a < p.tileBase + p.tileBytes

end Params

/-- FREE VALUE (R18, U2; log 3): the value of the byte at an address that nothing has written since power-up number `boot`.
It has no body: "A model treats the reset contents as arbitrary (universally quantified), never as zero".
Arguments: the number of the power-up, then the address. -/
opaque Config.powerOnByte : Nat → Nat → Byte

end Sys2Proof
end

