-- ==== Sys2Proof/Syntax.lean ====
section
/-! DEFINITION. The five commands of the PTU (R44), one constructor per row of spec/opcode_table.json. -/

namespace Sys2Proof

/-- A legal command with the operands R42 gives it. Coordinates are the 16-bit two's complement fields themselves;
their signed value is taken where it is used (`coord`). -/
inductive Instr where
  /-- FBPIX: write one framebuffer pixel (R61, R62). -/
  | fbpix (x y : Half) (colour : Half)
  /-- FBCLR: fill the whole framebuffer (R63). -/
  | fbclr (colour : Half)
  /-- FBSIZE: report the framebuffer size (R65). -/
  | fbsize
  /-- TPIX: write one pixel of tile buffer `t` (R71, R72, R73). -/
  | tpix (t : BitVec 4) (x y : Half) (index : Byte)
  /-- TSIZE: report the tile size (R75). -/
  | tsize
deriving DecidableEq, Repr

end Sys2Proof
end

