-- ==== Sys2Proof/WellFormed.lean ====
section
/-! DEFINITION. The one check on an instruction's operands that its types do not make: a TPIX names an existing tile buffer
(R42, R43 step 4). Out-of-bounds coordinates are legal (R47, R72). -/

namespace Sys2Proof

/-- The instruction is a command of a PTU with parameters `p`. -/
def Instr.wf (p : Params) : Instr → Bool
  | .fbpix _ _ _ => true
  | .fbclr _ => true
  | .fbsize => true
  | .tpix t _ _ _ => decide (t.toNat < p.ntiles)
  | .tsize => true

end Sys2Proof
end

