-- ==== Sys2Proof/Decode.lean ====
section
/-! DEFINITION. The decoder (R41 to R47), total on 64-bit words, and after it the encoder written from the same field table,
and the match/mask table of R45. -/

namespace Sys2Proof

/-! Fields of the command word (R41). -/

/-- `cmd.op`, bits 63:60. -/
def fieldOp (w : Command) : BitVec 4 := w.extractLsb' 60 4

/-- `cmd.tile`, bits 59:56. -/
def fieldTile (w : Command) : BitVec 4 := w.extractLsb' 56 4

/-- `cmd.rsv`, bits 55:48. -/
def fieldRsv (w : Command) : Byte := w.extractLsb' 48 8

/-- `cmd.data`, bits 47:32. -/
def fieldData (w : Command) : Half := w.extractLsb' 32 16

/-- `cmd.y`, bits 31:16. -/
def fieldY (w : Command) : Half := w.extractLsb' 16 16

/-- `cmd.x`, bits 15:0. -/
def fieldX (w : Command) : Half := w.extractLsb' 0 16

/-- `cmd.data[7:0]`, the palette index of a TPIX (R42). -/
def dataLow (d : Half) : Byte := d.extractLsb' 0 8

/-- `cmd.data[15:8]`, zero in a TPIX (R42, R45). -/
def dataHigh (d : Half) : Byte := d.extractLsb' 8 8

/-- What a word decodes to: one of the five commands, or `Illegal` (R43). -/
inductive Decoded where
  | legal (i : Instr)
  | illegal
deriving DecidableEq, Repr

/-- `i` when the fields that must be zero are zero, else Illegal (R43 step 3, R45). -/
def legalIf (mustBeZero : Bool) (i : Instr) : Decoded :=
  if mustBeZero then .legal i else .illegal

/-- Decode (R43): step 1 the reserved field, step 2 the operation code (R44), step 3 the fields the command does not use
(R45), step 4 the tile number, step 5 the command with its operands (R42). -/
def decode (p : Params) (w : Command) : Decoded :=
  if fieldRsv w ≠ 0#8 then .illegal
  else if fieldOp w = 0x1#4 then
    legalIf (fieldTile w == 0#4) (.fbpix (fieldX w) (fieldY w) (fieldData w))
  else if fieldOp w = 0x2#4 then
    legalIf (fieldTile w == 0#4 && fieldY w == 0#16 && fieldX w == 0#16) (.fbclr (fieldData w))
  else if fieldOp w = 0x3#4 then
    legalIf (fieldTile w == 0#4 && fieldData w == 0#16 && fieldY w == 0#16 && fieldX w == 0#16) .fbsize
  else if fieldOp w = 0x4#4 then
    legalIf (dataHigh (fieldData w) == 0#8 && decide ((fieldTile w).toNat < p.ntiles))
      (.tpix (fieldTile w) (fieldX w) (fieldY w) (dataLow (fieldData w)))
  else if fieldOp w = 0x5#4 then
    legalIf (fieldTile w == 0#4 && fieldData w == 0#16 && fieldY w == 0#16 && fieldX w == 0#16) .tsize
  else .illegal

/-- The operation code of each command (R44). -/
def opcode : Instr → BitVec 4
  | .fbpix _ _ _ => 0x1#4
  | .fbclr _ => 0x2#4
  | .fbsize => 0x3#4
  | .tpix _ _ _ _ => 0x4#4
  | .tsize => 0x5#4

/-- A command word from its fields, most significant first; `rsv` is zero in every command (R41). -/
def packCommand (op tile : BitVec 4) (data y x : Half) : Command :=
  op ++ tile ++ 0#8 ++ data ++ y ++ x

/-- The word of a command: the fields it uses (R42), every other field zero (R45). -/
def encode : Instr → Command
  | .fbpix x y c => packCommand 0x1#4 0#4 c y x
  | .fbclr c => packCommand 0x2#4 0#4 c 0#16 0#16
  | .fbsize => packCommand 0x3#4 0#4 0#16 0#16 0#16
  | .tpix t x y v => packCommand 0x4#4 t (0#8 ++ v) y x
  | .tsize => packCommand 0x5#4 0#4 0#16 0#16 0#16

/-- A row of the match/mask table of R45. -/
structure OpcodeRow where
  mnemonic : String
  pattern : Command
  mask : Command
deriving DecidableEq, Repr

/-- The table of R45 (and of spec/opcode_table.json), as printed. The decoder above does not use it; that the two agree is
a statement. -/
def opcodeTable : List OpcodeRow :=
  [ ⟨"FBPIX", 0x1000000000000000#64, 0xFFFF000000000000#64⟩,
    ⟨"FBCLR", 0x2000000000000000#64, 0xFFFF0000FFFFFFFF#64⟩,
    ⟨"FBSIZE", 0x3000000000000000#64, 0xFFFFFFFFFFFFFFFF#64⟩,
    ⟨"TPIX", 0x4000000000000000#64, 0xF0FFFF0000000000#64⟩,
    ⟨"TSIZE", 0x5000000000000000#64, 0xFFFFFFFFFFFFFFFF#64⟩ ]

/-- `word & mask == match` (R43, R45). -/
abbrev OpcodeRow.Matches (r : OpcodeRow) (w : Command) : Prop := w &&& r.mask = r.pattern

/-- The mnemonic of a command (R44). -/
def Instr.mnemonic : Instr → String
  | .fbpix _ _ _ => "FBPIX"
  | .fbclr _ => "FBCLR"
  | .fbsize => "FBSIZE"
  | .tpix _ _ _ _ => "TPIX"
  | .tsize => "TSIZE"

/-- The 64-bit command word whose low `nbits` bits are those of `w` and whose other bits are 0. -/
def tableCommand (nbits w : Nat) : Command := BitVec.ofNat 64 (w % 2 ^ nbits)

/-- The instruction the decoder reads from a table word, on the PTU of `State.reset` (REF, NTILES = 8; log 2, log 24).
A command is one 64-bit word (R40), so no byte order enters. -/
def decodeTableWord (nbits w : Nat) : Option Instr :=
  match decode Params.ref (tableCommand nbits w) with
  | .legal i => some i
  | .illegal => none

end Sys2Proof
end

