-- ==== Sys2Proof/Machine/State.lean ====
section
/-! DEFINITION. The state of the PTU (10_state.md section 1: S1 to S4) as plain data, its reset value (R18, R19, R111), and the
reasons a step or a host access can stop. -/

namespace Sys2Proof.Machine

/-- Memory: the bytes that have been written since the last reset, by strictly rising address (`Memory.wf`). An address that is
not listed has NO value the spec names (R18; log 3). -/
abbrev Memory := List Host.Cell

/-- The state of the machine. The spec's own: `mem` (S1 and S2, and the rest of the address space of R20), `latch` and `held`
(S3), `responses` (S4). The model's own: `cfg` (log 1), `channel` (log 7), `boot` (log 4). -/
structure State where
  /-- The implementation parameters (R4); no step changes them. -/
  cfg : Params
  /-- The memory behind the memory port (R20, R21). -/
  mem : Memory
  /-- S3, the command in flight: accepted and not yet answered (R14). -/
  latch : Option Command
  /-- S3, the word a TPIX has read and not yet written back (10_state.md section 5). -/
  held : Option LaneWord
  /-- S4, the responses given and not yet taken by the host, oldest first (R15). -/
  responses : List Response
  /-- The words waiting on the command channel, oldest first (R48). -/
  channel : List Command
  /-- How often the block has been power-cycled (log 4). -/
  boot : Nat
deriving DecidableEq, Repr

/-- Faults. No command raises one (R27, R91): `step` never answers a fault. -/
inductive Fault where
  /-- Raised by a HOST access (`hostRead`, `hostWrite`) to an address at or above 2^32, which does not exist (R20). Safe. -/
  | noSuchAddress
deriving DecidableEq, Repr

/-- Refusals. -/
inductive Refusal where
  /-- Raised by an arm of `exec` that has no meaning yet; no arm does. Safe. -/
  | notModelled (mnemonic : String)
  /-- Raised by `step` and by every HOST access when the parameters break R4 or R5: "not a PTU; a model refuses it" (R5, U5; log 22). Safe. -/
  | notAPtu
  /-- Raised by a HOST access outside the two regions: what lies there "is left to the platform" (R21, D30). Safe. -/
  | outsideRegions
  /-- Raised by a HOST halfword or word access at an address that is no multiple of its width: no rule says what a misaligned
  access does (R24). Safe. -/
  | misalignedHostAccess
  /-- Raised by a HOST write to a region that a command in flight targets: "a model refuses such a run" (R35, U4). Safe. -/
  | hostWriteInFlight
  /-- Raised by a HOST write while commands are in flight, none of which targets the region written: the host may write "only while
  no command is in flight" (R35, D28; log 14). Safe. -/
  | hostWriteWhileBusy
  /-- Raised by a HOST read of the framebuffer while an FBCLR is in flight (R34, U3: `refuse`). Safe. -/
  | hostReadDuringFill
deriving DecidableEq, Repr

/-- The state right after power-up number `boot` of a PTU with parameters `p` (R111): latch and response stream empty, every byte of
memory without a named value, nothing presented on the command channel. -/
def State.resetWith (p : Params) (boot : Nat) : State where
  cfg := p
  mem := []
  latch := none
  held := none
  responses := []
  channel := []
  boot := boot

/-- The state right after the first reset of the reference configuration REF (R111; log 2). -/
def State.reset : State := State.resetWith Params.ref 0

end Sys2Proof.Machine
end

