-- ==== Sys2Proof/Machine/Flags.lean ====
section
/-! DEFINITION. The PTU has no status flags, no condition codes and no predicates (R12), so there is no flag computation. What this
file holds instead are the values a response reports (R49): the two packed sizes, and which responses R49 admits. -/

namespace Sys2Proof.Machine

/-- A size pair in one word: height in bits 31:16, width in bits 15:0 (R65, R75). -/
def packSize (w h : Nat) : Word32 := (BitVec.ofNat 32 h <<< 16) ||| BitVec.ofNat 32 w

/-- FBSIZE's `val`: `(FB_H << 16) | FB_W` (R65). -/
def fbSizeVal (p : Params) : Word32 := packSize p.fbW p.fbH

/-- TSIZE's `val`: `(8 << 16) | 8` (R75). -/
def tileSizeVal : Word32 := packSize 8 8

/-- The response words R49 admits. -/
abbrev AdmittedResponse (p : Params) (r : Response) : Prop :=
  r = ⟨true, 0#32⟩ ∨ r = ⟨false, 0#32⟩ ∨ r = ⟨false, fbSizeVal p⟩ ∨ r = ⟨false, tileSizeVal⟩

end Sys2Proof.Machine
end

