-- ==== Sys2Proof/Machine/Operands.lean ====
section
/-! DEFINITION. Operands (R42), bounds tests (R61, R62, R71, R72) and the translation from coordinates to addresses (R60, R70).
The pixel numbers are natural numbers: they are used only after the bounds test has passed, where "no wrap-around, overflow or
truncation occurs" (R8). -/

namespace Sys2Proof.Machine

/-- `sext_16` (R7, R42): the signed coordinate of a field. -/
def coord (v : Half) : Int := v.toInt

/-- The coordinate of a field that has passed its bounds test, as a number. -/
def ucoord (v : Half) : Nat := v.toInt.toNat

/-- (x, y) is inside a surface `w` pixels wide and `h` high (R62: "the test is on x and y separately"). -/
abbrev inBounds (w h : Nat) (x y : Half) : Prop :=
  (0 ≤ coord x ∧ coord x < w) ∧ (0 ≤ coord y ∧ coord y < h)

/-! ## Framebuffer (R60, R61) -/

/-- The bounds test of FBPIX. -/
abbrev fbInBounds (p : Params) (x y : Half) : Prop := inBounds p.fbW p.fbH x y

/-- `k = y*FB_W + x`. -/
def fbPixelNumber (p : Params) (x y : Half) : Nat := ucoord y * p.fbW + ucoord x

/-- `FB_BASE + 2*k`. -/
def fbAddr (p : Params) (k : Nat) : Nat := p.fbBase + 2 * k

/-- The address FBPIX stores to. -/
def fbPixelAddr (p : Params) (x y : Half) : Nat := fbAddr p (fbPixelNumber p x y)

/-! ## Tile buffers (R70, R71) -/

/-- The bounds test of TPIX: 8 by 8 for every tile buffer (R72). -/
abbrev tileInBounds (x y : Half) : Prop := inBounds 8 8 x y

/-- `i = x + y*8`. -/
def tilePixelNumber (x y : Half) : Nat := ucoord x + ucoord y * 8

/-- `w = i / 4`. -/
def tileWordNumber (x y : Half) : Nat := tilePixelNumber x y / 4

/-- `n = i % 4`. -/
def tileLane (x y : Half) : Nat := tilePixelNumber x y % 4

/-- `sh = (i % 4) * 8`. -/
def tileShift (x y : Half) : Nat := tileLane x y * 8

/-- `TILE_BASE + 64*t`, the first byte of tile buffer `t`. -/
def tileBufAddr (p : Params) (t : BitVec 4) : Nat := p.tileBase + 64 * t.toNat

/-- `wa = TILE_BASE + 64*t + 4*w`. -/
def tileWordAddr (p : Params) (t : BitVec 4) (x y : Half) : Nat := tileBufAddr p t + 4 * tileWordNumber x y

/-- `~(0xFF << sh)`, the mask that clears the addressed lane. -/
def laneMask (sh : Nat) : Word32 := ~~~(0xFF#32 <<< sh)

/-- `zext_32(v) << sh`, the value in the addressed lane. -/
def laneInsert (v : Byte) (sh : Nat) : Word32 := v.setWidth 32 <<< sh

end Sys2Proof.Machine
end

