-- ==== Sys2Proof/Machine/Ops.lean ====
section
/-! DEFINITION. The named operations over memory, the in-flight latch and the response stream, and the one report of the
PTU, IllegalCommand (R90). Memory operations have no failing answer: "a model gives the port no failing answer" (R27). -/

namespace Sys2Proof.Machine

/-! ## Memory, byte by byte -/

/-- The canonical form: addresses strictly rising, each inside the 32-bit address space (R20). -/
abbrev Memory.wf (m : Memory) : Prop :=
  m.Pairwise (fun a b => a.1 < b.1) ∧ ∀ c ∈ m, c.1 < 2 ^ 32

/-- The byte at address `a`; `none` when nothing has written it since the last reset (R18; log 3). -/
def Memory.get : Memory → Nat → Option Byte
  | [], _ => none
  | (k, b) :: m, a => if k = a then some b else Memory.get m a

/-- Store byte `b` at `a`, keeping the addresses rising. -/
def Memory.put : Memory → Nat → Byte → Memory
  | [], a, b => [(a, b)]
  | (k, c) :: m, a, b =>
    if a < k then (a, b) :: (k, c) :: m
    else if a = k then (a, b) :: m
    else (k, c) :: Memory.put m a b

/-- Forget the byte at `a`. -/
def Memory.erase (m : Memory) (a : Nat) : Memory := m.filter (fun c => c.1 != a)

/-- Store a byte that may be one without a named value: such a byte is not listed. -/
def Memory.set (m : Memory) (a : Nat) : Option Byte → Memory
  | some b => Memory.put m a b
  | none => Memory.erase m a

/-! ## Wider accesses, little-endian (R22) -/

/-- `MemWrite(a, n, v)`: bits 8i+7 to 8i of `v` go to the byte at a+i, for i < n (R7, R22). -/
def Memory.write {w : Nat} (m : Memory) (a : Nat) (v : BitVec w) : Nat → Memory
  | 0 => m
  | n + 1 => (Memory.write m a v n).put (a + n) (v.extractLsb' (8 * n) 8)

/-- The 32-bit word at `a` lane by lane (R22: "lane n of a tile word is the byte at word address + n"). -/
def Memory.readLanes (m : Memory) (a : Nat) : LaneWord where
  lane0 := m.get a
  lane1 := m.get (a + 1)
  lane2 := m.get (a + 2)
  lane3 := m.get (a + 3)

/-- Write a word back lane by lane. -/
def Memory.writeLanes (m : Memory) (a : Nat) (v : LaneWord) : Memory :=
  (((m.set a v.lane0).set (a + 1) v.lane1).set (a + 2) v.lane2).set (a + 3) v.lane3

/-- The cells of `n` halfwords from address `a` on, each holding `v` (R22). -/
def fillCells (v : Half) : Nat → Nat → Memory
  | _, 0 => []
  | a, n + 1 => (a, v.extractLsb' 0 8) :: (a + 1, v.extractLsb' 8 8) :: fillCells v (a + 2) n

/-- The end state of FBCLR's stores (R63): the `n` halfwords from `a` on hold `v`, every other byte is as it was. -/
def Memory.fill (m : Memory) (a n : Nat) (v : Half) : Memory :=
  m.filter (fun c => decide (c.1 < a)) ++ (fillCells v a n ++ m.filter (fun c => decide (a + 2 * n ≤ c.1)))

/-! ## Reading a value (R7, R22)

Every byte holds a value (R18); the value of one that nothing has written is the free value `Config.powerOnByte`. -/

/-- The value the byte at `a` holds. -/
def State.byteAt (s : State) (a : Nat) : Byte := (s.mem.get a).getD (Config.powerOnByte s.boot a)

/-- The 16-bit value at `a` (R22, R23: bits 7:0 are the byte at `a`). -/
def State.half (s : State) (a : Nat) : Half := s.byteAt (a + 1) ++ s.byteAt a

/-- The 32-bit value at `a` (R22). -/
def State.word (s : State) (a : Nat) : Word32 :=
  s.byteAt (a + 3) ++ s.byteAt (a + 2) ++ s.byteAt (a + 1) ++ s.byteAt a

/-- `MemRead(a, n)` (R7, R22): byte(a) + 2^8*byte(a+1) + … -/
def State.memRead (s : State) (a : Nat) : Nat → Nat
  | 0 => 0
  | n + 1 => s.memRead a n + 2 ^ (8 * n) * (s.byteAt (a + n)).toNat

/-! ## The two word operations of TPIX, on words some of whose lanes may have no named value (R71, R77) -/

/-- One lane of `old & mask`: a lane the mask clears is 0 whatever it held; a lane without a named value that the mask keeps
stays so. -/
def maskLane (o : Option Byte) (m : Byte) : Option Byte := if m = 0#8 then some 0#8 else o.map (· &&& m)

/-- One lane of `old | new`. -/
def orLane (o : Option Byte) (b : Byte) : Option Byte := if b = 0#8 then o else o.map (· ||| b)

/-- `old & mask`. -/
def maskWord (old : LaneWord) (m : Word32) : LaneWord where
  lane0 := maskLane old.lane0 (m.extractLsb' 0 8)
  lane1 := maskLane old.lane1 (m.extractLsb' 8 8)
  lane2 := maskLane old.lane2 (m.extractLsb' 16 8)
  lane3 := maskLane old.lane3 (m.extractLsb' 24 8)

/-- `old | b`. -/
def orWord (old : LaneWord) (b : Word32) : LaneWord where
  lane0 := orLane old.lane0 (b.extractLsb' 0 8)
  lane1 := orLane old.lane1 (b.extractLsb' 8 8)
  lane2 := orLane old.lane2 (b.extractLsb' 16 8)
  lane3 := orLane old.lane3 (b.extractLsb' 24 8)

/-! ## Memory transactions on the state -/

/-- `MemWrite(a, 2, v)`. -/
def State.writeHalf (s : State) (a : Nat) (v : Half) : State := { s with mem := s.mem.write a v 2 }

/-- The bulk fill of FBCLR. -/
def State.fillHalves (s : State) (a n : Nat) (v : Half) : State := { s with mem := s.mem.fill a n v }

/-- The read of a TPIX: the word at `wa` goes into the latch's held word (10_state.md section 5, R29). -/
def State.readHold (s : State) (wa : Nat) : State := { s with held := some (s.mem.readLanes wa) }

/-- The write of a TPIX: `(held & mask) | ins` goes back to `wa`, all 32 bits (R71), and the held word is gone. -/
def State.writeHeld (s : State) (wa : Nat) (mask ins : Word32) : State :=
  match s.held with
  | none => s
  | some old => { s with mem := s.mem.writeLanes wa (orWord (maskWord old mask) ins), held := none }

/-! ## Accepting a command, answering it -/

/-- Acceptance (R14, R48): a command in the latch is the one being executed; when the latch is empty the oldest word waiting on the
channel is taken into it; when none waits the PTU is idle. -/
def State.accept (s : State) : Option (Command × State) :=
  match s.latch with
  | some w => some (w, s)
  | none =>
    match s.channel with
    | [] => none
    | w :: ws => some (w, { s with latch := some w, channel := ws })

/-- `respond(err, val)` and the end of the command: one response is appended to S4 and S3 is emptied (R14, R15). -/
def State.respond (s : State) (err : Bool) (val : Word32) : State :=
  { s with responses := s.responses ++ [⟨err, val⟩], latch := none, held := none }

/-- `raise IllegalCommand` (R7, R90), the PTU's only exception: the response {1, 0} "with no other effect". It transfers control
nowhere and there is nothing to return to (R93). -/
def State.raiseIllegalCommand (s : State) : State := s.respond true 0#32

/-- The state in which the word `w` is the next one the PTU accepts: the PTU is idle and `w` waits first on the channel. -/
def State.presentWord (s : State) (w : Command) : State :=
  { s with latch := none, held := none, channel := w :: s.channel }

end Sys2Proof.Machine
end

