-- ==== Sys2Proof/Machine/Framebuffer.lean ====
section
/-! DEFINITION. The Linear Framebuffer Target: FBPIX (R61, R62), FBCLR (R63), FBSIZE (R65). -/

namespace Sys2Proof.Machine

/-- FBPIX. In bounds: one 2-byte store of all 16 bits of the colour at `FB_BASE + 2*(y*FB_W + x)` (R61). Out of bounds: no memory
transaction (R62). The response is {0, 0} either way. -/
def execFbpix (x y colour : Half) (s : State) : Host.Outcome State Fault Refusal :=
  if fbInBounds s.cfg x y then
    .next ((s.writeHalf (fbPixelAddr s.cfg x y) colour).respond false 0#32)
  else
    .next (s.respond false 0#32)

/-- FBCLR (R63): every halfword of the framebuffer region becomes the colour, in one step (D18; log 11). -/
def execFbclr (colour : Half) (s : State) : Host.Outcome State Fault Refusal :=
  .next ((s.fillHalves s.cfg.fbBase s.cfg.pixels colour).respond false 0#32)

/-- FBSIZE (R65): no memory transaction; the response carries the size. -/
def execFbsize (s : State) : Host.Outcome State Fault Refusal :=
  .next (s.respond false (fbSizeVal s.cfg))

end Sys2Proof.Machine
end

