-- ==== Sys2Proof/Machine/Tile.lean ====
section
/-! DEFINITION. The Packed Tile Target: TPIX (R71, R72, R73), TSIZE (R75). -/

namespace Sys2Proof.Machine

/-- TPIX. A tile number that is not below NTILES is Illegal whatever the coordinates (R73; the decoder lets no such TPIX through, log 10).
In bounds: read the word at `wa` into the held word, then write `(old & ~(0xFF << sh)) | (v << sh)` back to `wa` (R71).
Out of bounds: neither the read nor the write (R72). The response is {0, 0} in both cases. -/
def execTpix (t : BitVec 4) (x y : Half) (v : Byte) (s : State) : Host.Outcome State Fault Refusal :=
  if t.toNat < s.cfg.ntiles then
    if tileInBounds x y then
      .next ((((s.readHold (tileWordAddr s.cfg t x y)).writeHeld (tileWordAddr s.cfg t x y)
        (laneMask (tileShift x y)) (laneInsert v (tileShift x y)))).respond false 0#32)
    else
      .next (s.respond false 0#32)
  else
    .next s.raiseIllegalCommand

/-- TSIZE (R75): no memory transaction; the response carries (8, 8). -/
def execTsize (s : State) : Host.Outcome State Fault Refusal :=
  .next (s.respond false tileSizeVal)

end Sys2Proof.Machine
end

