-- ==== Sys2Proof/Machine/Dispatch.lean ====
section
/-! DEFINITION. One arm per command. -/

namespace Sys2Proof.Machine

/-- The meaning of each command (R44). -/
def exec (i : Instr) (s : State) : Host.Outcome State Fault Refusal :=
  match i with
  | .fbpix x y colour => Sys2Proof.Machine.execFbpix x y colour s
  | .fbclr colour => Sys2Proof.Machine.execFbclr colour s
  | .fbsize => Sys2Proof.Machine.execFbsize s
  | .tpix t x y index => Sys2Proof.Machine.execTpix t x y index s
  | .tsize => Sys2Proof.Machine.execTsize s

end Sys2Proof.Machine
end

