-- ==== Sys2Proof/Machine/Command.lean ====
section
/-! DEFINITION. Running one command word: decode it on the PTU's parameters, then its meaning, or the report of R90. -/

namespace Sys2Proof.Machine

/-- The word `w` is executed: "A command word is either Illegal or legal, decided before anything else" (R92). -/
def runCommand (w : Command) (s : State) : Host.Outcome State Fault Refusal :=
  match decode s.cfg w with
  | .legal i => exec i s
  | .illegal => .next s.raiseIllegalCommand

/-- Accept a command and execute it; with none in the latch and none waiting the PTU "does nothing" (R111; log 8). -/
def acceptAndRun (s : State) : Host.Outcome State Fault Refusal :=
  match s.accept with
  | none => .next s
  | some (w, s') => runCommand w s'

end Sys2Proof.Machine
end

