-- ==== Sys2Proof/Machine/Step.lean ====
section
/-! DEFINITION. One step of the machine: one whole command, from acceptance to response (R14, R31; log 5). -/

namespace Sys2Proof.Machine

/-- One step. Parameters that break R4 or R5 are "not a PTU; a model refuses it" (R5, U5). -/
def step (s : State) : Host.Outcome State Fault Refusal :=
  if s.cfg.Valid then acceptAndRun s else .refused .notAPtu

/-- `s` with the table word presented as the next command on the channel and the PTU idle, so that the very next step accepts and
runs it (log 7: a program is a sequence of words the host presents; this stands for that presentation). -/
def State.withFetchWord (s : State) (nbits w : Nat) : State := s.presentWord (tableCommand nbits w)

end Sys2Proof.Machine
end

