-- ==== Sys2Proof/Machine/Asm.lean ====
section
/-! DEFINITION. The assembler syntax of R50 and R51: operands with their ranges, and the textual form. -/

namespace Sys2Proof.Machine

/-- A line of assembly after its numbers have been read (R50). Operands are integers of any size; `assemble` checks the ranges. -/
inductive AsmCommand where
  | fbpix (x y colour : Int)
  | fbclr (colour : Int)
  | fbsize
  | tpix (t x y index : Int)
  | tsize
deriving DecidableEq, Repr

/-- `lo <= z <= hi`. -/
abbrev inRange (lo hi z : Int) : Prop := lo ≤ z ∧ z ≤ hi

/-- "An assembler refuses an operand outside the stated range; it does not wrap it" (R50). NTILES is not known to it. -/
def assemble : AsmCommand → Option Command
  | .fbpix x y c =>
    if inRange (-32768) 32767 x ∧ inRange (-32768) 32767 y ∧ inRange 0 0xFFFF c then
      some (encode (.fbpix (BitVec.ofInt 16 x) (BitVec.ofInt 16 y) (BitVec.ofInt 16 c)))
    else none
  | .fbclr c => if inRange 0 0xFFFF c then some (encode (.fbclr (BitVec.ofInt 16 c))) else none
  | .fbsize => some (encode .fbsize)
  | .tpix t x y v =>
    if inRange 0 15 t ∧ inRange (-32768) 32767 x ∧ inRange (-32768) 32767 y ∧ inRange 0 255 v then
      some (encode (.tpix (BitVec.ofInt 4 t) (BitVec.ofInt 16 x) (BitVec.ofInt 16 y) (BitVec.ofInt 8 v)))
    else none
  | .tsize => some (encode .tsize)

/-! ## Text (R50: "Mnemonics are lower case; operands are separated by commas; numbers are decimal, optionally signed, or hexadecimal with
`0x`. There is one command per line; `;` starts a comment"). What R50 leaves open of the text is in log 20. -/

/-- The value of a decimal digit. -/
def decDigit (c : Char) : Option Nat :=
  if '0'.toNat ≤ c.toNat ∧ c.toNat ≤ '9'.toNat then some (c.toNat - '0'.toNat) else none

/-- The value of a hexadecimal digit, either case. -/
def hexDigit (c : Char) : Option Nat :=
  if '0'.toNat ≤ c.toNat ∧ c.toNat ≤ '9'.toNat then some (c.toNat - '0'.toNat)
  else if 'a'.toNat ≤ c.toNat ∧ c.toNat ≤ 'f'.toNat then some (c.toNat - 'a'.toNat + 10)
  else if 'A'.toNat ≤ c.toNat ∧ c.toNat ≤ 'F'.toNat then some (c.toNat - 'A'.toNat + 10)
  else none

/-- The number of a run of digits, most significant first, `acc` being what has been read. -/
def digitsFrom (digit : Char → Option Nat) (base : Nat) : Nat → List Char → Option Nat
  | acc, [] => some acc
  | acc, c :: cs => (digit c).bind (fun d => digitsFrom digit base (acc * base + d) cs)

/-- A non-empty run of digits. -/
def digits (digit : Char → Option Nat) (base : Nat) : List Char → Option Nat
  | [] => none
  | c :: cs => digitsFrom digit base 0 (c :: cs)

/-- A number of R50. -/
def parseNumber : List Char → Option Int
  | '0' :: 'x' :: cs => (digits hexDigit 16 cs).map Int.ofNat
  | '-' :: cs => (digits decDigit 10 cs).map (fun n => -(Int.ofNat n))
  | '+' :: cs => (digits decDigit 10 cs).map Int.ofNat
  | cs => (digits decDigit 10 cs).map Int.ofNat

/-- A space or a tab. -/
def isBlank (c : Char) : Bool := c == ' ' || c == '\t'

/-- Without the blanks at either end. -/
def trimBlanks (cs : List Char) : List Char := ((cs.dropWhile isBlank).reverse.dropWhile isBlank).reverse

/-- The parts between the commas. -/
def splitCommas : List Char → List (List Char)
  | [] => [[]]
  | c :: cs =>
    if c = ',' then [] :: splitCommas cs
    else match splitCommas cs with
      | [] => [[c]]
      | p :: ps => (c :: p) :: ps

/-- All of a list, or none of it. -/
def allSome {α : Type} : List (Option α) → Option (List α)
  | [] => some []
  | none :: _ => none
  | some a :: as => (allSome as).map (a :: ·)

/-- The operands of a line: nothing at all, or numbers separated by commas. -/
def parseOperands (cs : List Char) : Option (List Int) :=
  match trimBlanks cs with
  | [] => some []
  | c :: rest => allSome ((splitCommas (c :: rest)).map (fun p => parseNumber (trimBlanks p)))

/-- What a line of text is. -/
inductive AsmLine where
  /-- A blank line or a comment: no command. -/
  | blank
  /-- One command, with the word it assembles to. -/
  | word (w : Command)
  /-- Refused: no command of R50, or an operand outside its range. -/
  | refused
deriving DecidableEq, Repr

/-- The command a mnemonic and its operands name. There are no pseudo-instructions (R51). -/
def asmCommand (mnemonic : List Char) (ops : List Int) : Option AsmCommand :=
  if mnemonic = "fbpix".toList then
    match ops with
    | [x, y, c] => some (.fbpix x y c)
    | _ => none
  else if mnemonic = "fbclr".toList then
    match ops with
    | [c] => some (.fbclr c)
    | _ => none
  else if mnemonic = "fbsize".toList then
    match ops with
    | [] => some .fbsize
    | _ => none
  else if mnemonic = "tpix".toList then
    match ops with
    | [t, x, y, v] => some (.tpix t x y v)
    | _ => none
  else if mnemonic = "tsize".toList then
    match ops with
    | [] => some .tsize
    | _ => none
  else none

/-- One line of assembly text. -/
def assembleLine (line : List Char) : AsmLine :=
  match trimBlanks (line.takeWhile (fun c => c != ';')) with
  | [] => .blank
  | c :: cs =>
    match parseOperands ((c :: cs).dropWhile (fun d => !isBlank d)) with
    | none => .refused
    | some ops =>
      match (asmCommand ((c :: cs).takeWhile (fun d => !isBlank d)) ops).bind assemble with
      | none => .refused
      | some w => .word w

end Sys2Proof.Machine
end

