-- ==== Sys2Proof/Machine/Colour.lean ====
section
/-! DEFINITION. The host-side colour functions of 42_colour_conversion.md: pure, no state, no encoding (R87). No command calls them. -/

namespace Sys2Proof.Machine

/-- A 15-bit colour (R80): blue in bits 14:10, green in bits 9:5, red in bits 4:0. -/
abbrev Colour := BitVec 15

/-- Three channels, in the source's order (red, green, blue) (R81, C3). -/
structure Rgb where
  r : Nat
  g : Nat
  b : Nat
deriving DecidableEq, Repr

/-- A channel value has a packed form (R81). -/
abbrev channelOk (c : Nat) : Prop := c ≤ 31

/-- `pack15(r, g, b) = (b << 10) | (g << 5) | r`, bit 15 zero (R81); `none` for a channel outside 0 to 31, which "has no packed form"
(U8; log 19). -/
def pack15 (c : Rgb) : Option Half :=
  if channelOk c.r ∧ channelOk c.g ∧ channelOk c.b then
    some ((BitVec.ofNat 16 c.b <<< 10) ||| (BitVec.ofNat 16 c.g <<< 5) ||| BitVec.ofNat 16 c.r)
  else none

/-- `unpack15(w) = (w[4:0], w[9:5], w[14:10])`; bit 15 is ignored (R82). -/
def unpack15 (w : Half) : Rgb where
  r := (w.extractLsb' 0 5).toNat
  g := (w.extractLsb' 5 5).toNat
  b := (w.extractLsb' 10 5).toNat

/-- The colour of a packed halfword: bits 14:0. -/
def colourOf (w : Half) : Colour := w.extractLsb' 0 15

/-- A palette: PAL[0], PAL[1], …, PAL[PAL_N - 1]; PAL[0] stands for transparent (R83). The contents are a parameter (U17). -/
abbrev Palette := List Colour

/-- `1 <= PAL_N <= 256` (R83). What is done with a table that breaks this the spec does not say: `palLookup` and `tileIndex` do not check it
(DESIGN CHOICE, log 29). -/
abbrev Palette.Valid (pal : Palette) : Prop := 1 ≤ pal.length ∧ pal.length ≤ 256

/-- The first index at or after `j` whose entry is `c`, the entries being those from index `j` on. -/
def scanFrom (c : Colour) : Nat → List Colour → Option Nat
  | _, [] => none
  | j, e :: es => if e = c then some j else scanFrom c (j + 1) es

/-- `pal_lookup(c)` (R84): the indices 1, 2, … in ascending order, the first whose entry is `c`; `none` is the spec's `absent`. Index 0 is
not scanned. A table of any length is scanned to its end (log 29): an empty one has every colour absent. -/
def palLookup (pal : Palette) (c : Colour) : Option Nat := scanFrom c 1 (pal.drop 1)

/-- What a host does with a colour the palette lacks (R85): reject it, or use an index it has chosen. Which of the two is not specified
(U6), so it is an argument. -/
inductive AbsentPolicy where
  | reject
  | default (index : Byte)
deriving DecidableEq, Repr

/-- The index a host hands to TPIX for a colour; `none` means that it issues no TPIX for the pixel (R85). An index above 255, which only a table
longer than R83 allows can give, fits no `data[7:0]` (R42): no TPIX is issued for it, and it is not wrapped (DESIGN CHOICE, log 29). -/
def tileIndex (pal : Palette) (policy : AbsentPolicy) (c : Colour) : Option Byte :=
  match palLookup pal c with
  | some j => if j < 256 then some (BitVec.ofNat 8 j) else none
  | none =>
    match policy with
    | .reject => none
    | .default d => some d

end Sys2Proof.Machine
end

