-- ==== Sys2Proof/Machine/HostPort.lean ====
section
/-! DEFINITION. What the outside world can do to the PTU: issue words and take responses (R15, R48), read and write the two regions
directly (R17, R34, R35), power-cycle (R110), draw with coordinates wider than 16 bits (R119). None of this is part of `step`. -/

namespace Sys2Proof.Machine

/-! ## Channels -/

/-- The host puts one word on the command channel, behind those that wait (R48). -/
def hostIssue (w : Command) (s : State) : State := { s with channel := s.channel ++ [w] }

/-- The host takes the oldest response, which "is not readable again; the PTU keeps no copy" (R15; log 12). -/
def takeResponse (s : State) : Option (Response × State) :=
  match s.responses with
  | [] => none
  | r :: rs => some (r, { s with responses := rs })

/-- The commands issued and not yet answered (R34), oldest first. -/
def inFlight (s : State) : List Command := s.latch.toList ++ s.channel

/-- Power-cycle (R110, R111): latch, response stream and waiting words are gone without a response, every byte of memory has lost its
value; the parameters are the hardware's (log 16). -/
def powerCycle (s : State) : State := State.resetWith s.cfg (s.boot + 1)

/-! ## Direct access to the two regions -/

/-- The two regions of R21. -/
inductive Region where
  | framebuffer
  | tiles
deriving DecidableEq, Repr

/-- The widths of a host access: "any byte, halfword or word" (R34). -/
inductive AccessWidth where
  | byte
  | half
  | word
deriving DecidableEq, Repr

/-- Bytes accessed. -/
def AccessWidth.bytes : AccessWidth → Nat
  | byte => 1
  | half => 2
  | word => 4

/-- The region that holds all `n` bytes from `a` on. -/
def regionOf (p : Params) (a n : Nat) : Option Region :=
  if p.fbBase ≤ a ∧ a + n ≤ p.fbBase + p.fbBytes then some .framebuffer
  else if p.tileBase ≤ a ∧ a + n ≤ p.tileBase + p.tileBytes then some .tiles
  else none

/-- The region a command word targets; the size commands and Illegal words target none. -/
def targetRegion (p : Params) (w : Command) : Option Region :=
  match decode p w with
  | .legal (.fbpix _ _ _) => some .framebuffer
  | .legal (.fbclr _) => some .framebuffer
  | .legal .fbsize => none
  | .legal (.tpix _ _ _ _) => some .tiles
  | .legal .tsize => none
  | .illegal => none

/-- The word is an FBCLR. -/
def isFill (p : Params) (w : Command) : Bool :=
  match decode p w with
  | .legal (.fbclr _) => true
  | .legal (.fbpix _ _ _) => false
  | .legal .fbsize => false
  | .legal (.tpix _ _ _ _) => false
  | .legal .tsize => false
  | .illegal => false

/-- The state after the first `k` commands in flight (all of them when there are fewer). `step` stops only on parameters that are not those of a
PTU; the state is then left as it is, which no host access shows, since `hostAccess` refuses such parameters first (log 22). -/
def afterCommands : Nat → State → State
  | 0, s => s
  | k + 1, s =>
    match step s with
    | .next t => afterCommands k t
    | .fault _ => s
    | .refused _ => s

/-- The checks every host access passes first: there is a PTU to access (R5 has a model refuse other parameters; that a host access refuses them as
`step` does is the model's choice, log 22), the bytes exist (R20), the access is aligned (R24), and it lies inside one region (R17, D30). The
result is that region (log 15). -/
def hostAccess (p : Params) (w : AccessWidth) (a : Nat) : Host.Outcome Region Fault Refusal :=
  if ¬ p.Valid then .refused .notAPtu
  else if 2 ^ 32 < a + w.bytes then .fault .noSuchAddress
  else if a % w.bytes ≠ 0 then .refused .misalignedHostAccess
  else match regionOf p a w.bytes with
    | some r => .next r
    | none => .refused .outsideRegions

/-- A host read (R34). With no command in flight it returns the contents. With commands in flight it returns the contents as they are
after the first `seen` of them: for one FBPIX or TPIX "either the contents before or the contents after that command". `seen` is the
spec's open choice (U15; log 13): a claim about a read holds for every value. While an FBCLR is in flight no value of the framebuffer is
specified (U3: `refuse`). -/
def hostRead (seen : Nat) (w : AccessWidth) (a : Nat) (s : State) : Host.Outcome Nat Fault Refusal :=
  match hostAccess s.cfg w a with
  | .fault f => .fault f
  | .refused r => .refused r
  | .next r =>
    if r = .framebuffer ∧ (inFlight s).any (isFill s.cfg) then .refused .hostReadDuringFill
    else .next ((afterCommands seen s).memRead a w.bytes)

/-- A host write (R35, D28): the low bytes of `v` go to `a`, "but only while no command is in flight". A write to a region that a command in
flight targets is "a breach of the interface" to which the spec "gives the outcome no meaning" (U4: `refuse`); beside any other command in
flight, an Illegal word included, it is refused under a name of its own (log 14). -/
def hostWrite (w : AccessWidth) (a : Nat) (v : Word32) (s : State) : Host.Outcome State Fault Refusal :=
  match hostAccess s.cfg w a with
  | .fault f => .fault f
  | .refused r => .refused r
  | .next r =>
    if (inFlight s).any (fun c => targetRegion s.cfg c == some r) then .refused .hostWriteInFlight
    else if inFlight s ≠ [] then .refused .hostWriteWhileBusy
    else .next { s with mem := s.mem.write a v w.bytes }

/-! ## Drawing with coordinates of any size (R119) -/

/-- The integer fits a coordinate field (R42). -/
abbrev fitsCoord (z : Int) : Prop := -32768 ≤ z ∧ z ≤ 32767

/-- The host draws a framebuffer point: a point outside the 16-bit range is out of bounds for every surface, and "the host's correct action
is to issue no command for that point" (R119; log 25). -/
def hostDrawFb (x y : Int) (c : Half) (s : State) : State :=
  if fitsCoord x ∧ fitsCoord y then hostIssue (encode (.fbpix (BitVec.ofInt 16 x) (BitVec.ofInt 16 y) c)) s else s

/-- The same for a tile point. -/
def hostDrawTile (t : BitVec 4) (x y : Int) (v : Byte) (s : State) : State :=
  if fitsCoord x ∧ fitsCoord y then hostIssue (encode (.tpix t (BitVec.ofInt 16 x) (BitVec.ofInt 16 y) v)) s else s

end Sys2Proof.Machine
end

