-- ==== Sys2Proof/Machine/Frame.lean ====
section
/-! DEFINITION. The environment rules of 60_exceptions.md section 3 (R95 to R101) and the reset of R110 around them: the host program's frame loop and its one interrupt,
as a discipline around the PTU. They are "not PTU behaviour"; `step` does not depend on anything here (log 21). -/

namespace Sys2Proof.Machine

/-- Where the foreground context is: the set-up before the loop (R115), then the two states of the loop (R96). -/
inductive FramePhase where
  | setup
  | idle
  | active
deriving DecidableEq, Repr

/-- The PTU with the host program around it. -/
structure Platform where
  ptu : State
  phase : FramePhase
  /-- The pending-interrupt flag, "the only shared mutable state between the two contexts" (R99). What sets it and when it is remembered is the
  model's choice (log 26). -/
  pending : Bool
  /-- The process has halted in its reporting loop (R101). -/
  halted : Bool
deriving DecidableEq, Repr

/-- What can happen around the PTU. -/
inductive FrameEvent where
  /-- The foreground enables the interrupt, once, and enters the loop (R98, R115). -/
  | enableInterrupt
  /-- The display hardware signals vertical blank (R94, R96). -/
  | vblank
  /-- The interrupt context runs: it acknowledges, and does nothing else (R98). -/
  | acknowledge
  /-- The foreground issues one command (R95). -/
  | issue (w : Command)
  /-- The foreground writes a region directly (R17, R35, R76). A direct read changes nothing and needs no event. -/
  | write (w : AccessWidth) (a : Nat) (v : Word32)
  /-- The foreground takes the oldest response (R15). -/
  | take
  /-- The frame's draw calls have returned (R96). -/
  | frameDone
  /-- A fatal error of the host program (R101). -/
  | fatal
  /-- Power-off and power-on again, the reset (R110): the one thing that tears down the loop and the interrupt handler (R100). -/
  | powerCycle
  /-- The PTU takes one step. -/
  | ptuStep
deriving DecidableEq, Repr

/-- Before the set-up: a PTU after power-up, nothing pending, nothing halted (log 28). -/
def Platform.start (s : State) : Platform where
  ptu := s
  phase := .setup
  pending := false
  halted := false

/-- The platform after an event; `none` when the discipline does not let the event happen (log 21). R99 leaves open whether a vertical blank
signalled before the interrupt is enabled is remembered; here it is (DESIGN CHOICE, log 26): `vblank` sets `pending` in every phase, and one
set during `setup` is acknowledged after `enableInterrupt` and releases the first wait. So is one that is signalled in Active and not yet
acknowledged when the frame ends; one acknowledged in Active releases no later wait.

R101 leaves open whether a fatal error can strike while issued words are unanswered; here it cannot (DESIGN CHOICE, log 27): the foreground halts
between its draw calls, so that the halt "leaves the PTU idle and both memory regions as the last completed command left them".

The foreground writes regions and takes responses only when it may issue, for in Idle it waits (R99) and after a halt it does nothing; that R96 to R99 say
so of commands alone makes this the model's choice (log 21).

The loop, the handler and a halt end by `powerCycle` alone (R100), which can happen in every state and leads back to `Platform.start` (log 28). -/
def Platform.next (e : FrameEvent) (q : Platform) : Option Platform :=
  match e with
  | .enableInterrupt =>
    if q.phase = .setup ∧ q.halted = false ∧ inFlight q.ptu = [] then some { q with phase := .idle } else none
  | .vblank => some { q with pending := true }
  | .acknowledge =>
    if q.phase ≠ .setup ∧ q.pending = true then
      some { q with pending := false, phase := if q.halted then q.phase else .active }
    else none
  | .issue w =>
    if q.phase ≠ .idle ∧ q.halted = false then some { q with ptu := hostIssue w q.ptu } else none
  | .write w a v =>
    if q.phase ≠ .idle ∧ q.halted = false then
      match hostWrite w a v q.ptu with
      | .next t => some { q with ptu := t }
      | .fault _ => none
      | .refused _ => none
    else none
  | .take =>
    if q.phase ≠ .idle ∧ q.halted = false then (takeResponse q.ptu).map (fun p => { q with ptu := p.2 }) else none
  | .frameDone =>
    if q.phase = .active ∧ q.halted = false ∧ inFlight q.ptu = [] then some { q with phase := .idle } else none
  | .fatal => if inFlight q.ptu = [] then some { q with halted := true } else none
  | .powerCycle => some (Platform.start (powerCycle q.ptu))
  | .ptuStep =>
    match step q.ptu with
    | .next t => some { q with ptu := t }
    | .fault _ => none
    | .refused _ => none

end Sys2Proof.Machine
end

