-- ==== Sys2Proof/Machine/Port.lean ====
section
/-! DEFINITION. The memory transactions of each command (R25), beside the meanings: what the PTU puts on its memory port. The
meanings do not use this file; that their effect on memory is the effect of these transactions is a statement. -/

namespace Sys2Proof.Machine

/-- One transaction on the memory port. The PTU makes no 1-byte access (R25). -/
inductive Transaction where
  /-- `MemRead(a, 4)`. -/
  | readWord (a : Nat)
  /-- `MemWrite(a, 2, v)`. -/
  | writeHalf (a : Nat) (v : Half)
  /-- `MemWrite(a, 4, v)`, lane by lane. -/
  | writeWord (a : Nat) (v : LaneWord)
deriving DecidableEq, Repr

namespace Transaction

/-- The first byte accessed. -/
def addr : Transaction → Nat
  | readWord a => a
  | writeHalf a _ => a
  | writeWord a _ => a

/-- The number of bytes accessed. -/
def width : Transaction → Nat
  | readWord _ => 4
  | writeHalf _ _ => 2
  | writeWord _ _ => 4

/-- Naturally aligned (R24). -/
abbrev Aligned (t : Transaction) : Prop := t.addr % t.width = 0

/-- Wholly inside one of the two regions (R21). -/
abbrev InRegions (p : Params) (t : Transaction) : Prop :=
  (p.fbBase ≤ t.addr ∧ t.addr + t.width ≤ p.fbBase + p.fbBytes) ∨
  (p.tileBase ≤ t.addr ∧ t.addr + t.width ≤ p.tileBase + p.tileBytes)

/-- What the transaction does to memory: a read has no side effect, a write stores its bytes (R26). -/
def apply (m : Memory) : Transaction → Memory
  | readWord _ => m
  | writeHalf a v => m.write a v 2
  | writeWord a v => m.writeLanes a v

end Transaction

/-- The transactions in order, one after another (R29). -/
def applyAll (m : Memory) (ts : List Transaction) : Memory := ts.foldl Transaction.apply m

/-- The word `{c, c}` of two equal pixels (R63). -/
def pairWord (c : Half) : LaneWord where
  lane0 := some (c.extractLsb' 0 8)
  lane1 := some (c.extractLsb' 8 8)
  lane2 := some (c.extractLsb' 0 8)
  lane3 := some (c.extractLsb' 8 8)

/-- A store an FBCLR may make (R25, R63): one pixel, or two pixels as one word. -/
def FillStore (p : Params) (c : Half) : Transaction → Prop
  | .readWord _ => False
  | .writeHalf a v => v = c ∧ ∃ k, k < p.pixels ∧ a = fbAddr p k
  | .writeWord a v => v = pairWord c ∧ ∃ j, 2 * j + 1 < p.pixels ∧ a = fbAddr p (2 * j)

/-- The transaction stores pixel number `k`. -/
def StoresPixel (p : Params) (k : Nat) (t : Transaction) : Prop :=
  t.addr = fbAddr p k ∨ (t.width = 4 ∧ t.addr + 2 = fbAddr p k)

/-- Every sequence of transactions R25 admits for an FBCLR: "writes covering every halfword of the framebuffer region once or more, all
with the same data; count, width (2 or 4 bytes) and order not specified" (log 11). -/
def FillTraffic (p : Params) (c : Half) (ts : List Transaction) : Prop :=
  (∀ t ∈ ts, FillStore p c t) ∧ ∀ k < p.pixels, ∃ t ∈ ts, StoresPixel p k t

/-- The transactions of a command in state `s`, in order (R25); for FBCLR, whose sequence is not specified, see `FillTraffic`. -/
def pixelTransactions (s : State) : Instr → List Transaction
  | .fbpix x y c => if fbInBounds s.cfg x y then [.writeHalf (fbPixelAddr s.cfg x y) c] else []
  | .fbclr _ => []
  | .fbsize => []
  | .tpix t x y v =>
    if t.toNat < s.cfg.ntiles ∧ tileInBounds x y then
      [.readWord (tileWordAddr s.cfg t x y),
       .writeWord (tileWordAddr s.cfg t x y)
         (orWord (maskWord (s.mem.readLanes (tileWordAddr s.cfg t x y)) (laneMask (tileShift x y)))
           (laneInsert v (tileShift x y)))]
    else []
  | .tsize => []

/-- The traffic `ts` is one R25 admits for the command in state `s`. -/
def AdmittedTraffic (s : State) (i : Instr) (ts : List Transaction) : Prop :=
  match i with
  | .fbclr c => FillTraffic s.cfg c ts
  | .fbpix _ _ _ | .fbsize | .tpix _ _ _ _ | .tsize => ts = pixelTransactions s i

end Sys2Proof.Machine
end

