-- ==== Sys2Proof/Safety.lean ====
section
/-! DEFINITION. What claims call a good state, a clean run and an answered command. -/

namespace Sys2Proof.Machine

/-- The invariant every step keeps: the parameters are those of a PTU (R4, R5), memory is in canonical form inside the address space
(R20), a word is held only while a command is in flight (10_state.md section 5), and every response is one R49 admits. -/
abbrev State.Inv (s : State) : Prop :=
  s.cfg.Valid ∧ s.mem.wf ∧ (s.latch = none → s.held = none) ∧ ∀ r ∈ s.responses, AdmittedResponse s.cfg r

/-- No word has been reported Illegal: the run U1 calls one that has not "gone wrong". -/
abbrev State.Clean (s : State) : Prop := ∀ r ∈ s.responses, r.err = false

/-- The response R15 and R49 give to the word `w`. -/
def responseTo (p : Params) (w : Command) : Response :=
  match decode p w with
  | .illegal => ⟨true, 0#32⟩
  | .legal (.fbpix _ _ _) => ⟨false, 0#32⟩
  | .legal (.fbclr _) => ⟨false, 0#32⟩
  | .legal .fbsize => ⟨false, BitVec.ofNat 32 (p.fbH * 2 ^ 16 + p.fbW)⟩
  | .legal (.tpix _ _ _ _) => ⟨false, 0#32⟩
  | .legal .tsize => ⟨false, 0x00080008#32⟩

/-- `t` is `s` after one command has been answered with `r`, as far as everything but memory goes: one response more, nothing in flight,
and the parameters, the waiting words and the power-up count as they were. -/
structure Answered (s t : State) (r : Response) : Prop where
  cfg : t.cfg = s.cfg
  channel : t.channel = s.channel
  boot : t.boot = s.boot
  latch : t.latch = none
  held : t.held = none
  responses : t.responses = s.responses ++ [r]

/-- No byte of memory differs between `s` and `t`, whether or not it has a named value. -/
abbrev SameMemory (s t : State) : Prop := t.mem = s.mem

/-- Every byte outside `p` is the same in `s` and `t`: the same entry (or none) and the same value. -/
abbrev SameOutside (s t : State) (p : Nat → Prop) : Prop :=
  ∀ a, ¬ p a → t.mem.get a = s.mem.get a ∧ t.byteAt a = s.byteAt a

end Sys2Proof.Machine
end

