-- ==== Sys2Proof/Certificates/Slice0/Obligations.lean ====
section
/-! DEFINITION. The statements about the PTU. R<n> are the numbered rules of spec/, "log n" is notes/assumptions/n.md. Every statement holds
for every parameter set (R4): the parameters are the field `cfg` of the state (log 1), and the premise `cfg.Valid` says R4 and R5. -/

open Sys2Proof Sys2Proof.Machine

/-! ## The machine -/

/-- R14, R43, R48: in a PTU the oldest waiting word, when the latch is empty, is decoded and `step` is `exec` of that command. What `step` adds
around `exec` is the acceptance: the waiting word leaves the channel and enters the latch. That a word already in the latch, with a held word or
without, makes one step run `exec` of it from its start is the model's reading (log 5: one step is one whole command). -/
def Obligations.StepRunsTheDecodedCommand : Prop :=
  ∀ (s : State) (w : Command) (i : Instr), s.cfg.Valid → decode s.cfg w = .legal i →
    (s.latch = some w → step s = exec i s) ∧
    (∀ ws, s.latch = none → s.channel = w :: ws → step s = exec i { s with latch := some w, channel := ws })

/-- R90: an Illegal word is answered {1, 0}; nothing else changes, no memory transaction is made, and the PTU is then idle as after a legal
command. -/
def Obligations.IllegalWordIsReportedAndChangesNothing : Prop :=
  ∀ (s : State) (w : Command), s.cfg.Valid → decode s.cfg w = .illegal →
    (s.latch = some w →
      step s = .next { s with latch := none, held := none, responses := s.responses ++ [⟨true, 0#32⟩] }) ∧
    (∀ ws, s.latch = none → s.channel = w :: ws →
      step s = .next { s with latch := none, held := none, channel := ws, responses := s.responses ++ [⟨true, 0#32⟩] })

/-- R111 ("the PTU does nothing after reset until the host presents a command word"), in any state with no command in flight. That doing
nothing is a step to the same state is the model's reading (log 8). -/
def Obligations.IdlePtuDoesNothing : Prop :=
  ∀ s : State, s.cfg.Valid → inFlight s = [] → step s = .next s

/-- Every PTU answers every step with a next state, and `step` stops exactly on what is not a PTU. A host read or write, which may be refused for other
reasons too (log 15, log 14), is refused as notAPtu exactly there. R5 and U5 refuse the parameter sets that break R4
or R5; that `step` and the host accesses are where they are refused is the model's choice (log 22). For legal commands R27 and R91 say that nothing stops; that an Illegal word
is answered with a next state is R90 as the model has chosen to read it (log 9; U1 also allows a fault), and that an idle PTU's step is a next state
is the model's reading too (log 8). -/
def Obligations.StepStopsExactlyOnInvalidParameters : Prop :=
  ∀ s : State, (step s = .refused .notAPtu ↔ ¬ s.cfg.Valid) ∧ (s.cfg.Valid → ∃ t, step s = .next t) ∧
    ∀ (seen : Nat) (w : AccessWidth) (a : Nat) (v : Word32),
      (hostRead seen w a s = .refused .notAPtu ↔ ¬ s.cfg.Valid) ∧ (hostWrite w a v s = .refused .notAPtu ↔ ¬ s.cfg.Valid)

/-- R19: after reset the latch holds neither a command nor a word, and the response stream is empty; the first command presented runs as any
other does. -/
def Obligations.ResetIsEmptyAndTheFirstCommandRuns : Prop :=
  ∀ (p : Params) (boot : Nat),
    (State.resetWith p boot).latch = none ∧ (State.resetWith p boot).held = none ∧ (State.resetWith p boot).responses = [] ∧
    ∀ (w : Command) (i : Instr), p.Valid → decode p w = .legal i →
      step ((State.resetWith p boot).presentWord w) = exec i { State.resetWith p boot with latch := some w }

/-- R18, as the model holds it (log 3): after reset no byte has a named value, and the value each byte holds is the free value, for every
power-up number. -/
def Obligations.ResetGivesNoByteANamedValue : Prop :=
  ∀ (p : Params) (boot a : Nat),
    (State.resetWith p boot).mem.get a = none ∧ (State.resetWith p boot).byteAt a = Config.powerOnByte boot a

/-- R110, R111: a power-cycle empties latch and response stream without a response, leaves every byte of memory unspecified, keeps the parameters, and
leaves the PTU idle. The model's own in it: the words still waiting on the channel are abandoned too (log 16); unspecified is said as a byte without a
named value (log 3), its value being the free value of the next power-up number (log 4); idle is said as a step to the same state (log 8). -/
def Obligations.PowerCycleAbandonsWhatIsInFlight : Prop :=
  ∀ s : State,
    (powerCycle s).latch = none ∧ (powerCycle s).held = none ∧ (powerCycle s).responses = [] ∧ inFlight (powerCycle s) = [] ∧
    (powerCycle s).cfg = s.cfg ∧ (∀ a, (powerCycle s).mem.get a = none) ∧
    (∀ a, (powerCycle s).byteAt a = Config.powerOnByte (s.boot + 1) a) ∧
    (s.cfg.Valid → step (powerCycle s) = .next (powerCycle s))

/-- The invariant `State.Inv` holds after reset, of the reference configuration and of every other PTU. -/
def Obligations.ResetMeetsTheInvariant : Prop :=
  State.reset.Inv ∧ ∀ (p : Params) (boot : Nat), p.Valid → (State.resetWith p boot).Inv

/-- From every state that meets the invariant every step gives one that meets it: memory stays in canonical form inside the 32-bit space, no
word stays held without a command, every response is one R49 admits, the parameters stay those of a PTU. -/
def Obligations.StepKeepsTheInvariant : Prop :=
  ∀ s t : State, s.Inv → step s = .next t → t.Inv

/-- What the host can do keeps the invariant too: issuing, taking a response, writing a region, power-cycling. -/
def Obligations.HostActionsKeepTheInvariant : Prop :=
  ∀ s : State, s.Inv →
    (∀ w, (hostIssue w s).Inv) ∧
    (∀ r t, takeResponse s = some (r, t) → t.Inv) ∧
    (∀ w a v t, hostWrite w a v s = .next t → t.Inv) ∧
    (powerCycle s).Inv

/-- R4, R13, R66: no step changes the parameters. Nor does one change the power-up count, which is the model's own field (log 4). -/
def Obligations.NoStepChangesTheParameters : Prop :=
  ∀ s t : State, step s = .next t → t.cfg = s.cfg ∧ t.boot = s.boot

/-! ## Encoding and decoding -/

/-- The words of 30_encoding.md section 7 decode to the commands printed beside them, on the PTU REF (log 2; NTILES = 8: on a PTU with two tile buffers or
one, the word of `tpix 2, 5, 3, 0x11` is Illegal). -/
def Obligations.PrintedWordsDecode : Prop :=
  decode Params.ref 0x1000001F00000000#64 = .legal (.fbpix 0#16 0#16 0x001F#16) ∧
  decode Params.ref 0x100012340005FFFF#64 = .legal (.fbpix (-1#16) 5#16 0x1234#16) ∧
  decode Params.ref 0x100003E0009F00EF#64 = .legal (.fbpix 239#16 159#16 0x03E0#16) ∧
  decode Params.ref 0x20007FFF00000000#64 = .legal (.fbclr 0x7FFF#16) ∧
  decode Params.ref 0x3000000000000000#64 = .legal .fbsize ∧
  decode Params.ref 0x4000000300070007#64 = .legal (.tpix 0#4 7#16 7#16 3#8) ∧
  decode Params.ref 0x4200001100030005#64 = .legal (.tpix 2#4 5#16 3#16 0x11#8) ∧
  decode Params.ref 0x5000000000000000#64 = .legal .tsize

/-- R45: a word is the command of a row exactly when `word & mask == match`, and for TPIX its tile number is below NTILES; the five masked
patterns are disjoint. -/
def Obligations.DecodeAgreesWithMatchAndMask : Prop :=
  (∀ (p : Params) (w : Command), ∀ r ∈ opcodeTable,
    (∃ i, decode p w = .legal i ∧ i.mnemonic = r.mnemonic) ↔
      (r.Matches w ∧ (r.mnemonic = "TPIX" → (w.extractLsb' 56 4).toNat < p.ntiles))) ∧
  (∀ w : Command, ∀ r ∈ opcodeTable, ∀ q ∈ opcodeTable, r.Matches w → q.Matches w → r = q)

/-- R46: the Illegal words are exactly those with `op` 0 or 6 to 15, a non-zero `rsv`, a non-zero unused field, a TPIX with `data[15:8]` non-zero
or a TPIX with `tile >= NTILES`; the all-zero and the all-ones word among them; each is answered {1, 0} with no other effect. -/
def Obligations.IllegalWordsAreExactlyThese : Prop :=
  ∀ p : Params,
    (∀ w : Command, decode p w = .illegal ↔
      ((fieldOp w).toNat = 0 ∨ 6 ≤ (fieldOp w).toNat) ∨ fieldRsv w ≠ 0#8 ∨
      (fieldOp w = 1#4 ∧ fieldTile w ≠ 0#4) ∨
      (fieldOp w = 2#4 ∧ (fieldTile w ≠ 0#4 ∨ fieldY w ≠ 0#16 ∨ fieldX w ≠ 0#16)) ∨
      ((fieldOp w = 3#4 ∨ fieldOp w = 5#4) ∧
        (fieldTile w ≠ 0#4 ∨ fieldData w ≠ 0#16 ∨ fieldY w ≠ 0#16 ∨ fieldX w ≠ 0#16)) ∨
      (fieldOp w = 4#4 ∧ (w.extractLsb' 40 8 ≠ 0#8 ∨ p.ntiles ≤ (fieldTile w).toNat))) ∧
    decode p 0#64 = .illegal ∧ decode p (BitVec.allOnes 64) = .illegal ∧
    (∀ (s : State) (w : Command), s.cfg = p → decode p w = .illegal →
      runCommand w s = .next { s with latch := none, held := none, responses := s.responses ++ [⟨true, 0#32⟩] })

/-- Decode of encode is the identity on every command of every PTU: no bit of an encoding is dropped. -/
def Obligations.DecodeOfEncode : Prop :=
  ∀ (p : Params) (i : Instr), i.wf p = true → decode p (encode i) = .legal i

/-- D6 ("no two words for one command"): a word that decodes to a command is that command's encoding, and the command is well formed. -/
def Obligations.EncodeOfDecode : Prop :=
  ∀ (p : Params) (w : Command) (i : Instr), decode p w = .legal i → encode i = w ∧ i.wf p = true

/-! ## Linear Framebuffer Target -/

/-- R61: FBPIX in bounds. Its word (op 1, tile and rsv zero) decodes to it; it completes; the halfword at FB_BASE + 2*(y*FB_W + x) becomes all 16
bits of the colour by one 2-byte store; every other byte is as before; the response is {0, 0}; nothing else changes. -/
def Obligations.FbpixStoresOneHalfword : Prop :=
  ∀ (s : State) (x y c : Half),
    decode s.cfg (0x1#4 ++ 0#4 ++ 0#8 ++ c ++ y ++ x : BitVec 64) = .legal (.fbpix x y c) ∧
    ∀ (a : Nat), 0 ≤ x.toInt → x.toInt < s.cfg.fbW → 0 ≤ y.toInt → y.toInt < s.cfg.fbH →
      (a : Int) = s.cfg.fbBase + 2 * (y.toInt * s.cfg.fbW + x.toInt) →
      ∃ t, exec (.fbpix x y c) s = .next t ∧ t.half a = c ∧
        t.mem.get a = some (c.extractLsb' 0 8) ∧ t.mem.get (a + 1) = some (c.extractLsb' 8 8) ∧
        SameOutside s t (fun b => b = a ∨ b = a + 1) ∧ Answered s t ⟨false, 0#32⟩ ∧
        pixelTransactions s (.fbpix x y c) = [.writeHalf a c]

/-- R62: FBPIX out of bounds, the test being on x and y separately, changes no state and makes no memory transaction; the response is {0, 0}, the
same as when it draws. -/
def Obligations.FbpixOutOfBoundsIsSilent : Prop :=
  ∀ (s : State) (x y c : Half),
    x.toInt < 0 ∨ (s.cfg.fbW : Int) ≤ x.toInt ∨ y.toInt < 0 ∨ (s.cfg.fbH : Int) ≤ y.toInt →
    exec (.fbpix x y c) s = .next { s with latch := none, held := none, responses := s.responses ++ [⟨false, 0#32⟩] } ∧
    pixelTransactions s (.fbpix x y c) = []

/-- R63: FBCLR. Its word (op 2, every field but data zero) decodes to it; it completes; every halfword of the framebuffer holds the colour, no byte
outside the region has changed; the response is {0, 0}; nothing else changes. -/
def Obligations.FbclrFillsTheFramebuffer : Prop :=
  ∀ (s : State) (c : Half),
    decode s.cfg (0x2#4 ++ 0#4 ++ 0#8 ++ c ++ 0#16 ++ 0#16 : BitVec 64) = .legal (.fbclr c) ∧
    ∃ t, exec (.fbclr c) s = .next t ∧
      (∀ k, k < s.cfg.fbW * s.cfg.fbH →
        t.half (s.cfg.fbBase + 2 * k) = c ∧ t.mem.get (s.cfg.fbBase + 2 * k) = some (c.extractLsb' 0 8) ∧
        t.mem.get (s.cfg.fbBase + 2 * k + 1) = some (c.extractLsb' 8 8)) ∧
      SameOutside s t s.cfg.inFramebuffer ∧ Answered s t ⟨false, 0#32⟩

/-- R65: FBSIZE. The only word that decodes to it is 0x3000_0000_0000_0000; it completes in every state, with the response {0, (FB_H << 16) | FB_W} and
no other effect; width in bits 15:0, height in bits 31:16, bits 15 and 31 zero. -/
def Obligations.FbsizeReportsWidthAndHeight : Prop :=
  (∀ (p : Params) (w : Command), decode p w = .legal .fbsize ↔ w = 0x3000000000000000#64) ∧
  (∀ s : State, exec .fbsize s = .next { s with
      latch := none, held := none,
      responses := s.responses ++ [⟨false, (BitVec.ofNat 32 s.cfg.fbH <<< 16) ||| BitVec.ofNat 32 s.cfg.fbW⟩] }) ∧
  (∀ p : Params, p.Valid → (fbSizeVal p).toNat = p.fbH * 2 ^ 16 + p.fbW ∧
    ((fbSizeVal p).extractLsb' 0 16).toNat = p.fbW ∧ ((fbSizeVal p).extractLsb' 16 16).toNat = p.fbH ∧
    (fbSizeVal p).getLsbD 15 = false ∧ (fbSizeVal p).getLsbD 31 = false)

/-- FB-P2 (from R60): different pixels are at addresses at least 2 apart, and every pixel lies inside the region. -/
def Obligations.FramebufferPixelsDoNotOverlap : Prop :=
  ∀ (p : Params) (x y x' y' : Half), fbInBounds p x y → fbInBounds p x' y' →
    (p.fbBase ≤ fbPixelAddr p x y ∧ fbPixelAddr p x y + 2 ≤ p.fbBase + p.fbBytes) ∧
    ((x, y) ≠ (x', y') →
      fbPixelAddr p x y + 2 ≤ fbPixelAddr p x' y' ∨ fbPixelAddr p x' y' + 2 ≤ fbPixelAddr p x y)

/-- The source's scenario S6, for every colour, pixel and PTU (R63, R61, R30): after FBCLR c and then FBPIX (x, y) r, pixel (x, y) is r and every other
pixel is c. -/
def Obligations.ClearThenOnePixel : Prop :=
  ∀ (s : State) (c r x y : Half), fbInBounds s.cfg x y →
    ∃ t u, exec (.fbclr c) s = .next t ∧ exec (.fbpix x y r) t = .next u ∧
      ∀ x' y' : Half, fbInBounds s.cfg x' y' →
        u.half (fbPixelAddr s.cfg x' y') = if (x', y') = (x, y) then r else c

/-! ## Packed Tile Target -/

/-- R71: TPIX in bounds. Its word (op 4, rsv and data[15:8] zero) decodes to it when t < NTILES; it completes; with i = x + 8y, w = i / 4 and
sh = (i % 4) * 8, the word at wa = TILE_BASE + 64t + 4w becomes (old & ~(0xFF << sh)) | (v << sh), by one 4-byte read and one 4-byte write there: lane sh+7:sh is v, the other 24 bits and every other
byte of memory are as before; the response is {0, 0}; nothing else changes. -/
def Obligations.TpixReplacesOneByteLane : Prop :=
  ∀ (s : State) (t : BitVec 4) (x y : Half) (v : Byte), t.toNat < s.cfg.ntiles →
    decode s.cfg (0x4#4 ++ t ++ 0#8 ++ (0#8 ++ v) ++ y ++ x : BitVec 64) = .legal (.tpix t x y v) ∧
    ∀ (i sh wa : Nat), 0 ≤ x.toInt → x.toInt < 8 → 0 ≤ y.toInt → y.toInt < 8 →
      (i : Int) = x.toInt + y.toInt * 8 → sh = (i % 4) * 8 → wa = s.cfg.tileBase + 64 * t.toNat + 4 * (i / 4) →
      ∃ u, exec (.tpix t x y v) s = .next u ∧
        u.word wa = (s.word wa &&& ~~~(0xFF#32 <<< sh)) ||| (v.setWidth 32 <<< sh) ∧
        (u.word wa).extractLsb' sh 8 = v ∧
        SameOutside s u (fun b => b = s.cfg.tileBase + 64 * t.toNat + i) ∧ Answered s u ⟨false, 0#32⟩ ∧
        ∃ new, pixelTransactions s (.tpix t x y v) = [.readWord wa, .writeWord wa new]

/-- R72: TPIX out of bounds, the test being on x and y separately and the bound 8 for every buffer, makes neither the read nor the write, changes no state
and answers {0, 0}. -/
def Obligations.TpixOutOfBoundsIsSilent : Prop :=
  ∀ (s : State) (t : BitVec 4) (x y : Half) (v : Byte), t.toNat < s.cfg.ntiles →
    x.toInt < 0 ∨ 8 ≤ x.toInt ∨ y.toInt < 0 ∨ 8 ≤ y.toInt →
    exec (.tpix t x y v) s = .next { s with latch := none, held := none, responses := s.responses ++ [⟨false, 0#32⟩] } ∧
    pixelTransactions s (.tpix t x y v) = [] ∧ decode s.cfg (encode (.tpix t x y v)) = .legal (.tpix t x y v)

/-- R73: the word of a TPIX with tile >= NTILES is Illegal whatever its coordinates. That `exec`, called on such a command directly, answers what R73 and R90
say of its word ({1, 0}, nothing else) is the model's reading (log 10); no run reaches it. -/
def Obligations.TpixOfAMissingBufferIsIllegal : Prop :=
  ∀ (s : State) (t : BitVec 4) (x y : Half) (v : Byte), s.cfg.ntiles ≤ t.toNat →
    decode s.cfg (encode (.tpix t x y v)) = .illegal ∧
    exec (.tpix t x y v) s = .next { s with latch := none, held := none, responses := s.responses ++ [⟨true, 0#32⟩] }

/-- R74, R77: TPIX as a one-lane insert, on any buffer contents, unspecified or not: lane n, where n = x % 4, receives v, and the other three lanes keep what
they hold. That an unspecified lane is a byte without a named value, and that such a lane kept has none afterwards, is the model's representation (log 3
and log 6). -/
def Obligations.TpixInsertsIntoUnspecifiedContents : Prop :=
  ∀ (s : State) (t : BitVec 4) (x y : Half) (v : Byte), t.toNat < s.cfg.ntiles → tileInBounds x y →
    ∃ u, exec (.tpix t x y v) s = .next u ∧
      ∀ n, n < 4 → u.mem.get (tileWordAddr s.cfg t x y + n) =
        if (n : Int) = x.toInt % 4 then some v else s.mem.get (tileWordAddr s.cfg t x y + n)

/-- R71 (derived there from R22): the net effect of an in-bounds TPIX on the whole state equals a one-byte store of v at TILE_BASE + 64t + i. -/
def Obligations.TpixEqualsAByteStore : Prop :=
  ∀ (s : State) (t : BitVec 4) (x y : Half) (v : Byte), s.Inv → t.toNat < s.cfg.ntiles → tileInBounds x y →
    exec (.tpix t x y v) s = .next { s with
      mem := s.mem.put (s.cfg.tileBase + 64 * t.toNat + tilePixelNumber x y) v,
      latch := none, held := none, responses := s.responses ++ [⟨false, 0#32⟩] }

/-- T-P4, T-P6 (from R70, R71): two TPIX to different pixels, of the same buffer or not, in bounds or not, may be run in either order: the resulting
states are the same. -/
def Obligations.TpixOfDifferentPixelsCommute : Prop :=
  ∀ (s : State) (t t' : BitVec 4) (x y x' y' : Half) (v v' : Byte), s.Inv →
    t.toNat < s.cfg.ntiles → t'.toNat < s.cfg.ntiles → (t, x, y) ≠ (t', x', y') →
    ∃ a b u, exec (.tpix t x y v) s = .next a ∧ exec (.tpix t' x' y' v') a = .next u ∧
      exec (.tpix t' x' y' v') s = .next b ∧ exec (.tpix t x y v) b = .next u

/-- T-P6 (from R70, R73): a TPIX to buffer t changes no byte outside the 64 bytes of buffer t, so none of another buffer. -/
def Obligations.TpixStaysInItsBuffer : Prop :=
  ∀ (s : State) (t : BitVec 4) (x y : Half) (v : Byte),
    ∃ u, exec (.tpix t x y v) s = .next u ∧
      SameOutside s u (fun b => s.cfg.tileBase + 64 * t.toNat ≤ b ∧ b < s.cfg.tileBase + 64 * t.toNat + 64) ∧
      ∀ (t' : BitVec 4) (b : Nat), t' ≠ t → s.cfg.tileBase + 64 * t'.toNat ≤ b → b < s.cfg.tileBase + 64 * t'.toNat + 64 →
        u.mem.get b = s.mem.get b

/-- R75: TSIZE. The only word that decodes to it is 0x5000_0000_0000_0000; it completes in every state, under every parameter set, with the response
{0, 0x0008_0008} and no other effect. -/
def Obligations.TsizeReportsEightByEight : Prop :=
  (∀ (p : Params) (w : Command), decode p w = .legal .tsize ↔ w = 0x5000000000000000#64) ∧
  (∀ s : State, exec .tsize s = .next { s with
      latch := none, held := none, responses := s.responses ++ [⟨false, 0x00080008#32⟩] })

/-- R76 (derived there from R71): sixty-four TPIX, one per pixel of buffer t, presented on the channel, set every lane of the buffer whatever it held, and
change no other byte. One step a word (log 5) and the channel as a list (log 7) are the model's. -/
def Obligations.SixtyFourTpixSetABuffer : Prop :=
  ∀ (s : State) (t : BitVec 4) (v : Nat → Byte), s.cfg.Valid → t.toNat < s.cfg.ntiles → s.latch = none →
    s.channel = (List.range 64).map
      (fun i => encode (.tpix t (BitVec.ofNat 16 (i % 8)) (BitVec.ofNat 16 (i / 8)) (v i))) →
    ∃ u : State, Sys2Proof.core.run 64 s = .next u ∧ inFlight u = [] ∧
      (∀ i, i < 64 → u.mem.get (s.cfg.tileBase + 64 * t.toNat + i) = some (v i)) ∧
      SameOutside s u (fun b => s.cfg.tileBase + 64 * t.toNat ≤ b ∧ b < s.cfg.tileBase + 64 * t.toNat + 64)

/-! ## Memory, transactions, ordering -/

/-- R22, R23: an n-byte value written at a puts its bits 8i+7:8i in the byte at a+i and touches no other byte; a 4-byte read is
byte(a) + 2^8 byte(a+1) + 2^16 byte(a+2) + 2^24 byte(a+3); lane n of a word is the byte at its address + n. -/
def Obligations.MemoryIsLittleEndian : Prop :=
  (∀ (k : Nat) (m : Memory) (a n : Nat) (v : BitVec k) (b : Nat),
    (m.write a v n).get b = if a ≤ b ∧ b < a + n then some (v.extractLsb' (8 * (b - a)) 8) else m.get b) ∧
  (∀ (s : State) (a : Nat),
    s.memRead a 4 = (s.byteAt a).toNat + 2 ^ 8 * (s.byteAt (a + 1)).toNat + 2 ^ 16 * (s.byteAt (a + 2)).toNat +
      2 ^ 24 * (s.byteAt (a + 3)).toNat ∧
    (s.word a).toNat = s.memRead a 4 ∧ (s.half a).toNat = s.memRead a 2 ∧
    ∀ n, n < 4 → (s.word a).extractLsb' (8 * n) 8 = s.byteAt (a + n)) ∧
  (∀ (m : Memory) (a : Nat), m.readLanes a = ⟨m.get a, m.get (a + 1), m.get (a + 2), m.get (a + 3)⟩)

/-- R24, R21: whatever sequence of transactions R25 admits for a command, every one of them is naturally aligned and lies inside one of the two
regions. -/
def Obligations.EveryTransactionIsAlignedAndInRegion : Prop :=
  ∀ (s : State) (i : Instr) (ts : List Transaction), s.cfg.Valid → AdmittedTraffic s i ts →
    ∀ x ∈ ts, x.Aligned ∧ x.InRegions s.cfg

/-- R25, R29, R63: a command's effect on memory is the effect of its transactions one after another; for FBCLR, of ANY sequence of 2-byte and 4-byte stores
that R25 admits, whatever its order, widths, length and repetitions. -/
def Obligations.EffectOnMemoryIsThatOfTheTransactions : Prop :=
  ∀ (s : State) (i : Instr) (ts : List Transaction), s.Inv → AdmittedTraffic s i ts →
    ∃ t, exec i s = .next t ∧ t.mem = applyAll s.mem ts

/-- R8: after the bounds test, a framebuffer pixel number is y*FB_W + x exactly and in [0, FB_W*FB_H - 1]; a tile pixel number is x + y*8 exactly, in
[0, 63]; word number in [0, 15]; lane shift 0, 8, 16 or 24; every access ends inside the 32-bit space. -/
def Obligations.NoAddressComputationOverflows : Prop :=
  ∀ (p : Params) (x y : Half), p.Valid →
    (fbInBounds p x y →
      (fbPixelNumber p x y : Int) = y.toInt * p.fbW + x.toInt ∧ fbPixelNumber p x y ≤ p.fbW * p.fbH - 1 ∧
      fbPixelAddr p x y + 2 ≤ 2 ^ 32) ∧
    (tileInBounds x y →
      (tilePixelNumber x y : Int) = x.toInt + y.toInt * 8 ∧ tilePixelNumber x y ≤ 63 ∧ tileWordNumber x y ≤ 15 ∧
      (tileShift x y = 0 ∨ tileShift x y = 8 ∨ tileShift x y = 16 ∨ tileShift x y = 24) ∧
      ∀ t : BitVec 4, t.toNat < p.ntiles → tileWordAddr p t x y + 4 ≤ 2 ^ 32)

/-- R21: no step changes a byte outside the two regions. -/
def Obligations.NoStepTouchesMemoryOutsideTheRegions : Prop :=
  ∀ s t : State, step s = .next t → SameOutside s t (fun a => s.cfg.inFramebuffer a ∨ s.cfg.inTiles a)

/-- R21 with R61, R62, R63, R65, R71, R72, R73 and R75, and D14 (the regions are disjoint): the frame of each command on memory. FBPIX and FBCLR change no byte outside the framebuffer region (in a PTU: no tile byte), TPIX none
outside the tile region (no framebuffer byte), the size commands none at all. -/
def Obligations.EachTargetChangesOnlyItsRegion : Prop :=
  ∀ s : State, s.cfg.Valid →
    (∀ x y c, ∃ t, exec (.fbpix x y c) s = .next t ∧ SameOutside s t s.cfg.inFramebuffer ∧
      ∀ a, s.cfg.inTiles a → t.mem.get a = s.mem.get a) ∧
    (∀ c, ∃ t, exec (.fbclr c) s = .next t ∧ SameOutside s t s.cfg.inFramebuffer ∧
      ∀ a, s.cfg.inTiles a → t.mem.get a = s.mem.get a) ∧
    (∀ n x y v, ∃ t, exec (.tpix n x y v) s = .next t ∧ SameOutside s t s.cfg.inTiles ∧
      ∀ a, s.cfg.inFramebuffer a → t.mem.get a = s.mem.get a) ∧
    (∃ t, exec .fbsize s = .next t ∧ SameMemory s t) ∧ (∃ t, exec .tsize s = .next t ∧ SameMemory s t)

/-- FB-P4, T-P5 (from R30): of two writes to the same place the later one's value is what remains: memory is as if only the later command had run. -/
def Obligations.LastWriteWins : Prop :=
  ∀ s : State, s.Inv →
    (∀ x y c d, ∃ a b u, exec (.fbpix x y c) s = .next a ∧ exec (.fbpix x y d) a = .next b ∧
      exec (.fbpix x y d) s = .next u ∧ b.mem = u.mem) ∧
    (∀ x y c d, ∃ a b u, exec (.fbpix x y c) s = .next a ∧ exec (.fbclr d) a = .next b ∧
      exec (.fbclr d) s = .next u ∧ b.mem = u.mem) ∧
    (∀ c d, ∃ a b u, exec (.fbclr c) s = .next a ∧ exec (.fbclr d) a = .next b ∧
      exec (.fbclr d) s = .next u ∧ b.mem = u.mem) ∧
    (∀ n x y v w, ∃ a b u, exec (.tpix n x y v) s = .next a ∧ exec (.tpix n x y w) a = .next b ∧
      exec (.tpix n x y w) s = .next u ∧ b.mem = u.mem)

/-! ## The response stream -/

/-- R15: each accepted command appends exactly one response, err = 0 for every legal command and err = 1, val = 0 for an Illegal word, val the packed size
for the size commands and 0 otherwise; the command leaves the commands in flight; the host takes responses oldest first, each once; err is bit 32 and val bits 31:0 of the
response word. -/
def Obligations.EachCommandGetsExactlyOneResponse : Prop :=
  (∀ (s : State) (w : Command) (ws : List Command), s.cfg.Valid → inFlight s = w :: ws →
    ∃ t, step s = .next t ∧ t.responses = s.responses ++ [responseTo s.cfg w] ∧ t.latch = none ∧ t.held = none ∧ inFlight t = ws) ∧
  (∀ (s : State) (r : Response) (rs : List Response), s.responses = r :: rs →
    takeResponse s = some (r, { s with responses := rs })) ∧
  (∀ r : Response, r.word.getLsbD 32 = r.err ∧ r.word.extractLsb' 0 32 = r.val)

/-- R14, R15, R30, R48, R122: from any state of a PTU, every command in flight or waiting completes, in the order of acceptance; the response stream grows by
exactly the response of each word, in that order, and depends on the words and the parameters alone, on no byte of memory. A word the host issues waits
behind every word issued before it, none of which is lost, reordered or duplicated, and issuing changes nothing else; its response comes last. One step
a word (log 5), going on after an Illegal word (log 9) and the channel as a list (log 7) are the model's. -/
def Obligations.ResponseStreamOfAnyProgram : Prop :=
  (∀ s : State, s.cfg.Valid →
    ∃ t : State, Sys2Proof.core.run (inFlight s).length s = .next t ∧
      t.responses = s.responses ++ (inFlight s).map (responseTo s.cfg) ∧ inFlight t = [] ∧ t.cfg = s.cfg) ∧
  (∀ (s : State) (w : Command),
    inFlight (hostIssue w s) = inFlight s ++ [w] ∧ hostIssue w s = { s with channel := (hostIssue w s).channel }) ∧
  (∀ (s : State) (w : Command), s.cfg.Valid →
    ∃ t : State, Sys2Proof.core.run ((inFlight s).length + 1) (hostIssue w s) = .next t ∧
      t.responses = s.responses ++ (inFlight s).map (responseTo s.cfg) ++ [responseTo s.cfg w] ∧ inFlight t = [])

/-- R91, U1: a run stays clean exactly when it issues no Illegal word; coordinates out of bounds never show. -/
def Obligations.RunIsCleanIffNoWordIsIllegal : Prop :=
  ∀ s t : State, s.cfg.Valid → s.Clean → Sys2Proof.core.run (inFlight s).length s = .next t →
    (t.Clean ↔ ∀ w ∈ inFlight s, decode s.cfg w ≠ .illegal)

/-! ## The host's side -/

/-- R26, R34, R35: with no command in flight, a host write inside a region completes, puts its bytes there and changes nothing else, and the next host read
of the same place returns them, however often it is made. -/
def Obligations.HostReadsBackWhatItWrote : Prop :=
  ∀ (s : State) (w : AccessWidth) (a : Nat) (v : Word32) (r : Region),
    hostAccess s.cfg w a = .next r → inFlight s = [] →
    ∃ t, hostWrite w a v s = .next t ∧ t = { s with mem := t.mem } ∧
      SameOutside s t (fun b => a ≤ b ∧ b < a + w.bytes) ∧
      ∀ seen, hostRead seen w a t = .next (v.toNat % 2 ^ (8 * w.bytes))

/-- R34, U15: a host read while one command that is no FBCLR is in flight returns either the contents before it or the contents after it; which of the two
is open (log 13). -/
def Obligations.HostReadSeesBeforeOrAfter : Prop :=
  ∀ (s t : State) (c : Command) (w : AccessWidth) (a : Nat) (r : Region), s.cfg.Valid →
    inFlight s = [c] → isFill s.cfg c = false → hostAccess s.cfg w a = .next r → step s = .next t →
    hostRead 0 w a s = .next (s.memRead a w.bytes) ∧ ∀ k, hostRead (k + 1) w a s = .next (t.memRead a w.bytes)

/-- R35, D28, U3, U4: the host may write a region only while no command is in flight: such a write completes, one to a region that a command in flight targets
is refused (U4), and one beside any other command in flight is refused too. A host read of the framebuffer while an FBCLR is in flight is refused (U3).
That the second kind of write is a refusal, under a name of its own, is the model's (log 14). -/
def Obligations.HostAccessesInConflictAreRefused : Prop :=
  ∀ (s : State) (w : AccessWidth) (a : Nat) (v : Word32) (r : Region), hostAccess s.cfg w a = .next r →
    ((∃ c ∈ inFlight s, targetRegion s.cfg c = some r) → hostWrite w a v s = .refused .hostWriteInFlight) ∧
    (inFlight s ≠ [] → (∀ c ∈ inFlight s, targetRegion s.cfg c ≠ some r) → hostWrite w a v s = .refused .hostWriteWhileBusy) ∧
    (inFlight s = [] → hostWrite w a v s = .next { s with mem := s.mem.write a v w.bytes }) ∧
    (∀ seen, r = .framebuffer → (∃ c ∈ inFlight s, isFill s.cfg c = true) →
      hostRead seen w a s = .refused .hostReadDuringFill)

/-- R119: drawing with integer coordinates of any size on either target, the host issuing no command for a point outside the 16-bit range (log 25), has the
effect the source's unbounded coordinates have: the pixel is stored if the point is inside the surface, and memory is unchanged if it is not. For a
tile this holds of every existing buffer; one that does not exist (R73) is never changed. -/
def Obligations.WideCoordinatesAreClipped : Prop :=
  (∀ (s : State) (x y : Int), ¬ ((-32768 ≤ x ∧ x ≤ 32767) ∧ (-32768 ≤ y ∧ y ≤ 32767)) →
    (∀ c, hostDrawFb x y c s = s) ∧ ∀ n v, hostDrawTile n x y v s = s) ∧
  (∀ (s : State) (n : BitVec 4) (x y : Int) (v : Byte), s.cfg.Valid → inFlight s = [] →
    ∃ t, step (hostDrawTile n x y v s) = .next t ∧
      ((n.toNat < s.cfg.ntiles ∧ 0 ≤ x ∧ x < 8 ∧ 0 ≤ y ∧ y < 8) →
        t.mem.get (s.cfg.tileBase + 64 * n.toNat + (x + 8 * y).toNat) = some v ∧
        SameOutside s t (fun b => b = s.cfg.tileBase + 64 * n.toNat + (x + 8 * y).toNat)) ∧
      (¬ (n.toNat < s.cfg.ntiles ∧ 0 ≤ x ∧ x < 8 ∧ 0 ≤ y ∧ y < 8) → SameMemory s t)) ∧
  ∀ (s : State) (x y : Int) (c : Half), s.cfg.Valid → inFlight s = [] →
    ∃ t, step (hostDrawFb x y c s) = .next t ∧
      ((0 ≤ x ∧ x < s.cfg.fbW ∧ 0 ≤ y ∧ y < s.cfg.fbH) →
        t.half (s.cfg.fbBase + 2 * (y * s.cfg.fbW + x).toNat) = c ∧
        SameOutside s t (fun b => b = s.cfg.fbBase + 2 * (y * s.cfg.fbW + x).toNat ∨
          b = s.cfg.fbBase + 2 * (y * s.cfg.fbW + x).toNat + 1)) ∧
      (¬ (0 ≤ x ∧ x < s.cfg.fbW ∧ 0 ≤ y ∧ y < s.cfg.fbH) → SameMemory s t)

/-! ## Colours and palette -/

/-- R81: pack15 is total on channels 0 to 31, is (b << 10) | (g << 5) | r, is injective there, and has no value outside. -/
def Obligations.PackIsTotalAndInjectiveInRange : Prop :=
  (∀ r g b : Nat, r ≤ 31 → g ≤ 31 → b ≤ 31 →
    ∃ w, pack15 ⟨r, g, b⟩ = some w ∧ w.toNat = b * 2 ^ 10 + g * 2 ^ 5 + r) ∧
  (∀ (c d : Rgb) (w : Half), pack15 c = some w → pack15 d = some w → c = d) ∧
  (∀ c : Rgb, 31 < c.r ∨ 31 < c.g ∨ 31 < c.b → pack15 c = none)

/-- R82: unpack15 undoes pack15; pack15 of unpack15 clears bit 15 and nothing else. -/
def Obligations.UnpackUndoesPack : Prop :=
  (∀ (c : Rgb) (w : Half), pack15 c = some w → unpack15 w = c) ∧
  (∀ w : Half, pack15 (unpack15 w) = some (w &&& 0x7FFF#16))

/-- R84: pal_lookup returns the lowest index from 1 on whose entry is the colour; it is absent exactly when there is none; index 0 is never scanned and
never returned. -/
def Obligations.PaletteLookupReturnsTheLowestIndex : Prop :=
  ∀ (pal : Palette) (c : Colour),
    (∀ j, palLookup pal c = some j ↔
      (1 ≤ j ∧ pal[j]? = some c ∧ ∀ i, 1 ≤ i → i < j → pal[i]? ≠ some c)) ∧
    (palLookup pal c = none ↔ ∀ j, 1 ≤ j → pal[j]? ≠ some c)

/-- R85: a colour the palette lacks is never aliased to index 0 unless the host has chosen 0 as its default; with the policy `reject` no index is issued; a colour
a palette of R83 has is issued with its index. A table that breaks R83 is not refused, and an index above 255 in one is not wrapped to another: no index is
issued for it (the model's choice, log 29). -/
def Obligations.AbsentColourIsNotAliasedToZero : Prop :=
  ∀ (pal : Palette) (policy : AbsentPolicy) (c : Colour),
    (tileIndex pal policy c = some 0#8 → palLookup pal c = none ∧ policy = .default 0#8) ∧
    (palLookup pal c = none → tileIndex pal .reject c = none) ∧
    (pal.Valid → ∀ j, palLookup pal c = some j → ∃ b, tileIndex pal policy c = some b ∧ b.toNat = j) ∧
    (∀ j, palLookup pal c = some j → 256 ≤ j → tileIndex pal policy c = none)

/-! ## Assembler -/

/-- R50: an assembler refuses an operand outside its range and does not wrap one inside: the word it makes decodes to exactly the integers written. A tpix with
NTILES <= t <= 15 assembles and is Illegal when executed. -/
def Obligations.AssemblerNeverWrapsAnOperand : Prop :=
  ∀ p : Params,
    (∀ x y c : Int,
      if inRange (-32768) 32767 x ∧ inRange (-32768) 32767 y ∧ inRange 0 0xFFFF c then
        ∃ w X Y C, assemble (.fbpix x y c) = some w ∧ decode p w = .legal (.fbpix X Y C) ∧
          X.toInt = x ∧ Y.toInt = y ∧ (C.toNat : Int) = c
      else assemble (.fbpix x y c) = none) ∧
    (∀ c : Int,
      if inRange 0 0xFFFF c then
        ∃ w C, assemble (.fbclr c) = some w ∧ decode p w = .legal (.fbclr C) ∧ (C.toNat : Int) = c
      else assemble (.fbclr c) = none) ∧
    (∀ t x y v : Int,
      if inRange 0 15 t ∧ inRange (-32768) 32767 x ∧ inRange (-32768) 32767 y ∧ inRange 0 255 v then
        ∃ w, assemble (.tpix t x y v) = some w ∧
          if t < p.ntiles then
            ∃ T X Y V, decode p w = .legal (.tpix T X Y V) ∧ (T.toNat : Int) = t ∧ X.toInt = x ∧ Y.toInt = y ∧ (V.toNat : Int) = v
          else decode p w = .illegal
      else assemble (.tpix t x y v) = none)

/-- The eight assembly lines of 30_encoding.md section 7 assemble to the words printed beside them, a line with a comment as the same line without (R50), and an
operand out of range is refused (R50). That a line with only a comment is no command and that an unknown mnemonic is refused is the model's choice (log 20). -/
def Obligations.PrintedLinesAssemble : Prop :=
  assembleLine "fbpix 0, 0, 0x001F".toList = .word 0x1000001F00000000#64 ∧
  assembleLine "fbpix -1, 5, 0x1234".toList = .word 0x100012340005FFFF#64 ∧
  assembleLine "fbpix 239, 159, 0x03E0".toList = .word 0x100003E0009F00EF#64 ∧
  assembleLine "fbclr 0x7FFF".toList = .word 0x20007FFF00000000#64 ∧
  assembleLine "fbclr 0x7FFF ; white".toList = .word 0x20007FFF00000000#64 ∧
  assembleLine "fbsize".toList = .word 0x3000000000000000#64 ∧
  assembleLine "tpix 0, 7, 7, 3".toList = .word 0x4000000300070007#64 ∧
  assembleLine "tpix 2, 5, 3, 0x11".toList = .word 0x4200001100030005#64 ∧
  assembleLine "tsize".toList = .word 0x5000000000000000#64 ∧
  assembleLine "; a comment".toList = .blank ∧
  assembleLine "fbpix 32768, 0, 0".toList = .refused ∧
  assembleLine "tpix 0, 0, 0, 0x100".toList = .refused ∧
  assembleLine "tclr 0".toList = .refused

/-! ## Environment rules -/

/-- R95 to R100, with R15, R17 and R35: of the modelled frame events only the foreground's (issuing a command, writing a region, taking a response), the PTU's own step
and a power cycle change the PTU, each as it does by itself; the interrupt context issues nothing and writes no memory; the foreground does these outside Idle and
before a halt only; Idle is left only by an acknowledged vertical blank, or by a power cycle. The discipline is the model's (log 21). -/
def Obligations.InterruptContextNeverDraws : Prop :=
  ∀ (e : FrameEvent) (q r : Platform), q.next e = some r →
    (r.ptu = q.ptu ∨ (∃ w, e = .issue w ∧ q.phase ≠ .idle ∧ q.halted = false ∧ r.ptu = hostIssue w q.ptu) ∨
      (∃ w a v, e = .write w a v ∧ q.phase ≠ .idle ∧ q.halted = false ∧ hostWrite w a v q.ptu = .next r.ptu) ∨
      (∃ p, e = .take ∧ q.phase ≠ .idle ∧ q.halted = false ∧ takeResponse q.ptu = some (p, r.ptu)) ∨
      (e = .ptuStep ∧ step q.ptu = .next r.ptu) ∨ (e = .powerCycle ∧ r.ptu = powerCycle q.ptu)) ∧
    (q.phase = .idle → r.phase ≠ .idle → (e = .acknowledge ∧ q.pending = true ∧ r.pending = false) ∨ e = .powerCycle)

/-- In Idle no command is in flight, whatever happens around the PTU: R96 says that Active is left after the frame's draw calls have returned. That the set-up and
Active are left only with nothing in flight, and that nothing is issued in Idle, is the model's discipline around the PTU (log 21). -/
def Obligations.NothingIsInFlightWhileIdle : Prop :=
  ∀ (e : FrameEvent) (q r : Platform), (q.phase = .idle → inFlight q.ptu = []) → q.next e = some r →
    (r.phase = .idle → inFlight r.ptu = [])

/-- R100: nothing but a power cycle tears down the loop, the interrupt handler (which stays enabled once the set-up is over) or a halt, and no command is
cancelled but by one: the words in flight stay, one more is issued behind them, or the oldest completes with its response. A power cycle can happen in every
state; it abandons what is in flight (R110) and leads back to the start. The discipline and the start are the model's (logs 21, 28), and so are one step
a word (log 5) and the idle step (log 8). -/
def Obligations.OnlyAPowerCycleTearsDown : Prop :=
  (∀ (e : FrameEvent) (q r : Platform), e ≠ .powerCycle → q.next e = some r →
    (q.phase ≠ .setup → r.phase ≠ .setup) ∧ (q.halted = true → r.halted = true) ∧
    (inFlight r.ptu = inFlight q.ptu ∨ (∃ w, inFlight r.ptu = inFlight q.ptu ++ [w]) ∨
      ∃ w, inFlight q.ptu = w :: inFlight r.ptu ∧ r.ptu.responses = q.ptu.responses ++ [responseTo q.ptu.cfg w])) ∧
  (∀ q : Platform, q.next .powerCycle = some (Platform.start (powerCycle q.ptu)) ∧
    (Platform.start (powerCycle q.ptu)).phase = .setup ∧ inFlight (Platform.start (powerCycle q.ptu)).ptu = [])

/-- R101: a halt leaves the PTU idle and both memory regions as the last completed command left them, whatever happens afterwards short of a power cycle: no
command is issued, no region written, no response taken. That no word is unanswered when the fatal error strikes is the model's choice (log 27), in the
discipline of log 21. -/
def Obligations.AHaltLeavesThePtuIdle : Prop :=
  ∀ (e : FrameEvent) (q r : Platform), (q.halted = true → inFlight q.ptu = []) → q.next e = some r →
    (r.halted = true → inFlight r.ptu = []) ∧
    (q.halted = true → e ≠ .powerCycle → r.ptu = q.ptu) ∧ (e = .fatal → r.halted = true ∧ r.ptu = q.ptu)
end

