-- ==== Sys2Proof/Laws/Encoding.lean ====
section
/-! SUPPORT. The fields of a packed command word are the fields it was packed from, and a word with a zero reserved field is packed
from its own fields (R41). -/

namespace Sys2Proof

/-- Every field of a packed word, R41's layout read back. -/
theorem packCommand_fields (op tile : BitVec 4) (data y x : Half) :
    fieldOp (packCommand op tile data y x) = op ∧ fieldTile (packCommand op tile data y x) = tile ∧
    fieldRsv (packCommand op tile data y x) = 0#8 ∧ fieldData (packCommand op tile data y x) = data ∧
    fieldY (packCommand op tile data y x) = y ∧ fieldX (packCommand op tile data y x) = x := by
  unfold packCommand fieldOp fieldTile fieldRsv fieldData fieldY fieldX
  refine ⟨?_, ?_, ?_, ?_, ?_, ?_⟩ <;>
  · apply BitVec.eq_of_getLsbD_eq
    intro i hi
    simp only [BitVec.getLsbD_extractLsb', BitVec.getLsbD_append, hi, decide_true, Bool.true_and]
    repeat' split
    all_goals first | omega | (congr 1; omega)

/-- A word whose reserved field is zero is determined by its other fields. -/
theorem packCommand_of_fields (w : Command) (h : fieldRsv w = 0#8) :
    packCommand (fieldOp w) (fieldTile w) (fieldData w) (fieldY w) (fieldX w) = w := by
  unfold packCommand
  rw [← h]
  unfold fieldOp fieldTile fieldRsv fieldData fieldY fieldX
  apply BitVec.eq_of_getLsbD_eq
  intro i hi
  simp only [BitVec.getLsbD_extractLsb', BitVec.getLsbD_append]
  repeat' split
  all_goals first | omega | (rw [decide_eq_true (by omega), Bool.true_and]; congr 1; omega)

/-- The two halves of the data field of a TPIX (R42, R45). -/
theorem data_of_index (v : Byte) : dataHigh (0#8 ++ v) = 0#8 ∧ dataLow (0#8 ++ v) = v := by
  unfold dataHigh dataLow
  constructor <;>
  · apply BitVec.eq_of_getLsbD_eq
    intro i hi
    simp only [BitVec.getLsbD_extractLsb', BitVec.getLsbD_append, hi, decide_true, Bool.true_and]
    repeat' split
    all_goals first | omega | (congr 1; omega)

/-- A data field whose high half is zero is its low half, zero-extended. -/
theorem data_of_low (d : Half) (h : dataHigh d = 0#8) : (0#8 ++ dataLow d : BitVec 16) = d := by
  rw [← h]
  unfold dataHigh dataLow
  apply BitVec.eq_of_getLsbD_eq
  intro i hi
  simp only [BitVec.getLsbD_extractLsb', BitVec.getLsbD_append]
  split
  all_goals first | omega | (rw [decide_eq_true (by omega), Bool.true_and]; congr 1; omega)

end Sys2Proof
end

