-- ==== Sys2Proof/Laws/Memory.lean ====
section
/-! SUPPORT. The laws of memory: a read after a write gives what was written, a write leaves every other byte alone, every operation keeps
the canonical form, and two memories in canonical form that agree on every byte are equal. -/

namespace Sys2Proof.Machine

namespace Memory

/-! ## Reading after one operation -/

@[simp] theorem get_nil (a : Nat) : Memory.get [] a = none := rfl

theorem get_cons (k : Nat) (b : Byte) (m : Memory) (a : Nat) :
    Memory.get ((k, b) :: m) a = if k = a then some b else m.get a := rfl

theorem get_put (m : Memory) (a : Nat) (b : Byte) (c : Nat) :
    (m.put a b).get c = if c = a then some b else m.get c := by
  induction m with
  | nil => simp [put, get_cons, eq_comm]
  | cons cell m ih =>
    obtain ⟨k, d⟩ := cell
    unfold put
    by_cases hc : c = a
    · subst hc
      rw [if_pos rfl]
      split
      · rw [get_cons, if_pos rfl]
      · split
        · rw [get_cons, if_pos rfl]
        · rename_i hne
          rw [get_cons, if_neg (Ne.symm hne), ih, if_pos rfl]
    · rw [if_neg hc] at ih ⊢
      split
      · rw [get_cons, if_neg (Ne.symm hc)]
      · split
        · rename_i hk
          rw [get_cons, if_neg (Ne.symm hc), get_cons, if_neg (fun h => hc (h.symm.trans hk.symm))]
        · rw [get_cons, get_cons, ih]

theorem get_append (m n : Memory) (a : Nat) : Memory.get (m ++ n) a = (m.get a).or (n.get a) := by
  induction m with
  | nil => simp
  | cons cell m ih =>
    obtain ⟨k, d⟩ := cell
    rw [List.cons_append, get_cons, get_cons, ih]
    split <;> simp

theorem get_filter (m : Memory) (p : Nat → Bool) (a : Nat) :
    Memory.get (m.filter (fun c => p c.1)) a = if p a then m.get a else none := by
  induction m with
  | nil => simp
  | cons cell m ih =>
    obtain ⟨k, d⟩ := cell
    rw [List.filter_cons]
    split
    · rename_i h
      rw [get_cons, get_cons, ih]
      split
      · subst_vars; simp_all
      · rfl
    · rename_i h
      rw [ih, get_cons]
      by_cases hk : k = a
      · subst hk; simp_all
      · simp [hk]

theorem get_erase (m : Memory) (a c : Nat) : (m.erase a).get c = if c = a then none else m.get c := by
  unfold erase
  rw [get_filter m (fun k => k != a)]
  by_cases h : c = a <;> simp [h]

/-- The law of the byte store: it decides its own byte and no other. -/
theorem get_set (m : Memory) (a : Nat) (o : Option Byte) (c : Nat) : (m.set a o).get c = if c = a then o else m.get c := by
  cases o with
  | none => exact get_erase m a c
  | some b => exact get_put m a b c

/-- The law of `MemWrite` (R7, R22). -/
theorem get_write {w : Nat} (m : Memory) (a : Nat) (v : BitVec w) (n c : Nat) :
    (m.write a v n).get c = if a ≤ c ∧ c < a + n then some (v.extractLsb' (8 * (c - a)) 8) else m.get c := by
  induction n with
  | zero => simp only [write]; rw [if_neg]; omega
  | succ n ih =>
    simp only [write, get_put, ih]
    by_cases h : c = a + n
    · subst h
      simp
    · rw [if_neg h]
      by_cases h2 : a ≤ c ∧ c < a + n
      · rw [if_pos h2, if_pos (by omega)]
      · rw [if_neg h2, if_neg (by omega)]

/-- The law of the lane write. -/
theorem get_writeLanes (m : Memory) (a : Nat) (v : LaneWord) (c : Nat) :
    (m.writeLanes a v).get c =
      if c = a then v.lane0 else if c = a + 1 then v.lane1 else if c = a + 2 then v.lane2
      else if c = a + 3 then v.lane3 else m.get c := by
  simp only [writeLanes, get_set]
  by_cases h0 : c = a
  · subst h0; simp
  by_cases h1 : c = a + 1
  · subst h1; simp
  by_cases h2 : c = a + 2
  · subst h2; simp
  by_cases h3 : c = a + 3
  · subst h3; simp
  simp [h0, h1, h2, h3]

theorem get_fillCells (v : Half) (a n c : Nat) :
    Memory.get (fillCells v a n) c =
      if a ≤ c ∧ c < a + 2 * n then some (if (c - a) % 2 = 0 then v.extractLsb' 0 8 else v.extractLsb' 8 8) else none := by
  induction n generalizing a with
  | zero => simp only [fillCells, get_nil]; rw [if_neg]; omega
  | succ n ih =>
    simp only [fillCells, get_cons, ih]
    by_cases h0 : a = c
    · subst h0; simp
    by_cases h1 : a + 1 = c
    · subst h1
      have h2 : 1 < 2 * (n + 1) := by omega
      simp [h2]
    by_cases h2 : a + 2 ≤ c ∧ c < a + 2 + 2 * n
    · have h3 : a ≤ c ∧ c < a + 2 * (n + 1) := by omega
      have h4 : (c - (a + 2)) % 2 = (c - a) % 2 := by omega
      simp [h0, h1, h2, h3, h4]
    · have h3 : ¬ (a ≤ c ∧ c < a + 2 * (n + 1)) := by omega
      simp [h0, h1, h2, h3]

/-- The law of the bulk fill (R63). -/
theorem get_fill (m : Memory) (a n : Nat) (v : Half) (c : Nat) :
    (m.fill a n v).get c =
      if a ≤ c ∧ c < a + 2 * n then some (if (c - a) % 2 = 0 then v.extractLsb' 0 8 else v.extractLsb' 8 8) else m.get c := by
  unfold fill
  rw [get_append, get_append, get_filter m (fun k => decide (k < a)), get_fillCells,
    get_filter m (fun k => decide (a + 2 * n ≤ k))]
  by_cases h1 : c < a
  · have : ¬ (a ≤ c ∧ c < a + 2 * n) := by omega
    have h2 : ¬ (a + 2 * n ≤ c) := by omega
    simp [h1, this, h2]
  · by_cases h2 : a + 2 * n ≤ c
    · have : ¬ (a ≤ c ∧ c < a + 2 * n) := by omega
      simp [h1, h2, this]
    · have : a ≤ c ∧ c < a + 2 * n := by omega
      simp [h1, h2, this]

/-! ## The canonical form is kept -/

theorem wf_nil : Memory.wf [] := by simp [wf]

theorem wf_reset : Memory.wf State.reset.mem := wf_nil

theorem mem_put {m : Memory} {a : Nat} {b : Byte} {c : Host.Cell} (h : c ∈ m.put a b) : c = (a, b) ∨ c ∈ m := by
  induction m with
  | nil => simpa [put] using h
  | cons cell m ih =>
    obtain ⟨k, d⟩ := cell
    unfold put at h
    split at h
    · simpa using h
    · split at h
      · rcases List.mem_cons.1 h with h | h
        · exact .inl h
        · exact .inr (List.mem_cons_of_mem _ h)
      · rcases List.mem_cons.1 h with h | h
        · exact .inr (h ▸ List.mem_cons_self)
        · exact (ih h).imp_right (List.mem_cons_of_mem _)

theorem sorted_put {m : Memory} (a : Nat) (b : Byte) (h : m.Pairwise (fun x y => x.1 < y.1)) :
    (m.put a b).Pairwise (fun x y => x.1 < y.1) := by
  induction m with
  | nil => simp [put]
  | cons cell m ih =>
    obtain ⟨k, d⟩ := cell
    rw [List.pairwise_cons] at h
    unfold put
    split
    · rename_i hlt
      refine List.pairwise_cons.2 ⟨fun c hc => ?_, List.pairwise_cons.2 h⟩
      rcases List.mem_cons.1 hc with rfl | hc
      · exact hlt
      · exact Nat.lt_trans hlt (h.1 c hc)
    · split
      · rename_i he
        subst he
        exact List.pairwise_cons.2 h
      · refine List.pairwise_cons.2 ⟨fun c hc => ?_, ih h.2⟩
        rcases mem_put hc with rfl | hc
        · simp only at *; omega
        · exact h.1 c hc

theorem wf_put {m : Memory} {a : Nat} {b : Byte} (h : m.wf) (ha : a < 2 ^ 32) : (m.put a b).wf := by
  refine ⟨sorted_put a b h.1, fun c hc => ?_⟩
  rcases mem_put hc with rfl | hc
  · exact ha
  · exact h.2 c hc

theorem wf_filter {m : Memory} (p : Host.Cell → Bool) (h : m.wf) : Memory.wf (m.filter p) :=
  ⟨h.1.filter p, fun c hc => h.2 c (List.mem_of_mem_filter hc)⟩

theorem wf_set {m : Memory} {a : Nat} (o : Option Byte) (h : m.wf) (ha : a < 2 ^ 32) : (m.set a o).wf := by
  cases o with
  | none => exact wf_filter _ h
  | some b => exact wf_put h ha

theorem wf_write {w : Nat} {m : Memory} {a : Nat} (v : BitVec w) (n : Nat) (h : m.wf) (ha : a + n ≤ 2 ^ 32) : (m.write a v n).wf := by
  induction n with
  | zero => exact h
  | succ n ih => exact wf_put (ih (by omega)) (by omega)

theorem wf_writeLanes {m : Memory} {a : Nat} (v : LaneWord) (h : m.wf) (ha : a + 4 ≤ 2 ^ 32) : (m.writeLanes a v).wf := by
  unfold writeLanes
  exact wf_set _ (wf_set _ (wf_set _ (wf_set _ h (by omega)) (by omega)) (by omega)) (by omega)

theorem mem_fillCells {v : Half} {a n : Nat} {c : Host.Cell} (h : c ∈ fillCells v a n) : a ≤ c.1 ∧ c.1 < a + 2 * n := by
  induction n generalizing a with
  | zero => simp [fillCells] at h
  | succ n ih =>
    rcases List.mem_cons.1 h with rfl | h
    · simp only; omega
    · rcases List.mem_cons.1 h with rfl | h
      · simp only; omega
      · have := ih h; omega

theorem sorted_fillCells (v : Half) (a n : Nat) : (fillCells v a n).Pairwise (fun x y => x.1 < y.1) := by
  induction n generalizing a with
  | zero => exact List.Pairwise.nil
  | succ n ih =>
    refine List.pairwise_cons.2 ⟨fun c hc => ?_, List.pairwise_cons.2 ⟨fun c hc => ?_, ih (a + 2)⟩⟩
    · rcases List.mem_cons.1 hc with rfl | hc
      · simp
      · have := mem_fillCells hc; simp only; omega
    · have := mem_fillCells hc; simp only; omega

theorem wf_fill {m : Memory} {a n : Nat} (v : Half) (h : m.wf) (ha : a + 2 * n ≤ 2 ^ 32) : (m.fill a n v).wf := by
  refine ⟨?_, fun c hc => ?_⟩
  · unfold fill
    refine List.pairwise_append.2 ⟨h.1.filter _, List.pairwise_append.2 ⟨sorted_fillCells v a n, h.1.filter _, ?_⟩, ?_⟩
    · intro x hx y hy
      have h1 := mem_fillCells hx
      have h2 : a + 2 * n ≤ y.1 := by simpa using (List.mem_filter.1 hy).2
      omega
    · intro x hx y hy
      have h1 : x.1 < a := by simpa using (List.mem_filter.1 hx).2
      rcases List.mem_append.1 hy with hy | hy
      · have h2 := mem_fillCells hy; omega
      · have h2 : a + 2 * n ≤ y.1 := by simpa using (List.mem_filter.1 hy).2
        omega
  · rcases List.mem_append.1 hc with hc | hc
    · exact h.2 c (List.mem_of_mem_filter hc)
    · rcases List.mem_append.1 hc with hc | hc
      · have := mem_fillCells hc; omega
      · exact h.2 c (List.mem_of_mem_filter hc)

/-! ## Equal memories are equal data -/

theorem get_eq_none_of_lt {m : Memory} {a : Nat} (h : ∀ c ∈ m, a < c.1) : m.get a = none := by
  induction m with
  | nil => rfl
  | cons cell m ih =>
    obtain ⟨k, d⟩ := cell
    have hk : a < k := h (k, d) List.mem_cons_self
    rw [get_cons, if_neg (by omega)]
    exact ih (fun c hc => h c (List.mem_cons_of_mem _ hc))

/-- Two memories in canonical form that agree on every byte are the same list. -/
theorem ext {m n : Memory} (hm : m.wf) (hn : n.wf) (h : ∀ a, m.get a = n.get a) : m = n := by
  obtain ⟨hm, -⟩ := hm
  obtain ⟨hn, -⟩ := hn
  induction m generalizing n with
  | nil =>
    cases n with
    | nil => rfl
    | cons c n => have := h c.1; obtain ⟨k, d⟩ := c; simp [get_cons] at this
  | cons c m ih =>
    obtain ⟨k, b⟩ := c
    rw [List.pairwise_cons] at hm
    cases n with
    | nil => have := h k; simp [get_cons] at this
    | cons e n =>
      obtain ⟨l, d⟩ := e
      rw [List.pairwise_cons] at hn
      have hkl : k = l := by
        rcases Nat.lt_trichotomy k l with hlt | heq | hgt
        · have h1 := h k
          rw [get_cons, if_pos rfl, get_cons, if_neg (by omega),
            get_eq_none_of_lt (fun c hc => Nat.lt_trans hlt (hn.1 c hc))] at h1
          cases h1
        · exact heq
        · have h1 := h l
          rw [get_cons (k := l), if_pos rfl, get_cons, if_neg (by omega),
            get_eq_none_of_lt (fun c hc => Nat.lt_trans hgt (hm.1 c hc))] at h1
          cases h1
      subst hkl
      have hbd : b = d := by have := h k; simpa [get_cons] using this
      subst hbd
      congr 1
      refine ih (fun a => ?_) hm.2 hn.2
      by_cases hka : k = a
      · subst hka
        rw [get_eq_none_of_lt (fun c hc => hm.1 c hc), get_eq_none_of_lt (fun c hc => hn.1 c hc)]
      · have := h a
        simpa [get_cons, hka] using this

end Memory

/-! ## The lanes of a TPIX (R71, R74) -/

/-- One lane of a word, by number. -/
def laneOf (w : LaneWord) (n : Nat) : Option Byte :=
  if n = 0 then w.lane0 else if n = 1 then w.lane1 else if n = 2 then w.lane2 else w.lane3

theorem maskLane_ones (o : Option Byte) : maskLane o 0xFF#8 = o := by
  cases o with
  | none => rfl
  | some b =>
    have : b &&& 0xFF#8 = b := by
      have : (0xFF#8 : Byte) = BitVec.allOnes 8 := rfl
      rw [this, BitVec.and_allOnes]
    simp [maskLane, this]

theorem maskLane_zero (o : Option Byte) : maskLane o 0#8 = some 0#8 := rfl

theorem orLane_zero (o : Option Byte) : orLane o 0#8 = o := rfl

theorem orLane_clear (v : Byte) : orLane (some 0#8) v = some v := by
  unfold orLane
  split
  · simp_all
  · simp

theorem laneInsert_byte (v : Byte) (n k : Nat) (hn : n < 4) (hk : k < 4) :
    (laneInsert v (n * 8)).extractLsb' (k * 8) 8 = if k = n then v else 0#8 := by
  apply BitVec.eq_of_getLsbD_eq
  intro i hi
  unfold laneInsert
  split
  · subst k
    have h1 : n * 8 + i < 32 := by omega
    simp [hi, h1]
  · have h1 : k * 8 + i < 32 := by omega
    simp only [BitVec.getLsbD_extractLsb', BitVec.getLsbD_shiftLeft, BitVec.getLsbD_setWidth]
    by_cases h2 : k * 8 + i < n * 8
    · simp [h2]
    · have h3 : 8 ≤ k * 8 + i - n * 8 := by omega
      simp [BitVec.getLsbD_of_ge v _ h3]

theorem laneMask_byte : ∀ n < 4, ∀ k < 4, (laneMask (n * 8)).extractLsb' (k * 8) 8 = if k = n then 0#8 else 0xFF#8 := by
  decide

/-- The read-modify-write on lanes: "lane n = i % 4 receives v, lanes != n keep their values" (R74), a lane without a named value
included. -/
theorem laneOf_rmw (old : LaneWord) (v : Byte) (n k : Nat) (hn : n < 4) (hk : k < 4) :
    laneOf (orWord (maskWord old (laneMask (n * 8))) (laneInsert v (n * 8))) k = if k = n then some v else laneOf old k := by
  have hm := laneMask_byte n hn
  have hi := fun k hk => laneInsert_byte v n k hn hk
  have m0 := hm 0 (by omega); have m1 := hm 1 (by omega); have m2 := hm 2 (by omega); have m3 := hm 3 (by omega)
  have i0 := hi 0 (by omega); have i1 := hi 1 (by omega); have i2 := hi 2 (by omega); have i3 := hi 3 (by omega)
  simp only [Nat.reduceMul, Nat.zero_mul, Nat.one_mul] at m0 m1 m2 m3 i0 i1 i2 i3
  have step : ∀ o : Option Byte, orLane (maskLane o (if k = n then 0#8 else 0xFF#8)) (if k = n then v else 0#8) = if k = n then some v else o := by
    intro o
    split
    · rw [maskLane_zero, orLane_clear]
    · rw [maskLane_ones, orLane_zero]
  obtain rfl | rfl | rfl | rfl : k = 0 ∨ k = 1 ∨ k = 2 ∨ k = 3 := by omega
  · simpa [laneOf, orWord, maskWord, m0, i0] using step old.lane0
  · simpa [laneOf, orWord, maskWord, m1, i1] using step old.lane1
  · simpa [laneOf, orWord, maskWord, m2, i2] using step old.lane2
  · simpa [laneOf, orWord, maskWord, m3, i3] using step old.lane3

/-- Reading and writing back, lane by lane. -/
theorem get_rmw (m : Memory) (wa n : Nat) (v : Byte) (hn : n < 4) (c : Nat) :
    (m.writeLanes wa (orWord (maskWord (m.readLanes wa) (laneMask (n * 8))) (laneInsert v (n * 8)))).get c =
      if c = wa + n then some v else m.get c := by
  rw [Memory.get_writeLanes]
  have h := fun k hk => laneOf_rmw (m.readLanes wa) v n k hn hk
  have h0 := h 0 (by omega); have h1 := h 1 (by omega); have h2 := h 2 (by omega); have h3 := h 3 (by omega)
  simp only [laneOf, if_true, if_false, Nat.succ_ne_self, OfNat.ofNat_ne_zero, OfNat.ofNat_ne_one] at h0 h1 h2 h3
  rw [h0, h1, h2]
  have h3' : (orWord (maskWord (m.readLanes wa) (laneMask (n * 8))) (laneInsert v (n * 8))).lane3 =
      if 3 = n then some v else (m.readLanes wa).lane3 := by simpa using h3
  rw [h3']
  by_cases c0 : c = wa
  · subst c0
    by_cases e : n = 0
    · subst e; simp
    · simp [e, Ne.symm e, Memory.readLanes]
  by_cases c1 : c = wa + 1
  · subst c1
    by_cases e : n = 1
    · subst e; simp
    · simp [Ne.symm e, Memory.readLanes]
  by_cases c2 : c = wa + 2
  · subst c2
    by_cases e : n = 2
    · subst e; simp
    · simp [Ne.symm e, Memory.readLanes]
  by_cases c3 : c = wa + 3
  · subst c3
    by_cases e : n = 3
    · subst e; simp
    · simp [Ne.symm e, Memory.readLanes]
  have : c ≠ wa + n := by omega
  simp [c0, c1, c2, c3, this]

end Sys2Proof.Machine
end

