-- ==== Sys2Proof/Laws/State.lean ====
section
/-! SUPPORT. One lemma per field and update of State, each true by unfolding, so that no later proof unfolds a record update. -/

namespace Sys2Proof.Machine

@[simp] theorem State.writeHalf_cfg (s : State) (a : Nat) (v : Half) : (s.writeHalf a v).cfg = s.cfg := rfl
@[simp] theorem State.writeHalf_mem (s : State) (a : Nat) (v : Half) : (s.writeHalf a v).mem = s.mem.write a v 2 := rfl
@[simp] theorem State.writeHalf_latch (s : State) (a : Nat) (v : Half) : (s.writeHalf a v).latch = s.latch := rfl
@[simp] theorem State.writeHalf_held (s : State) (a : Nat) (v : Half) : (s.writeHalf a v).held = s.held := rfl
@[simp] theorem State.writeHalf_responses (s : State) (a : Nat) (v : Half) : (s.writeHalf a v).responses = s.responses := rfl
@[simp] theorem State.writeHalf_channel (s : State) (a : Nat) (v : Half) : (s.writeHalf a v).channel = s.channel := rfl
@[simp] theorem State.writeHalf_boot (s : State) (a : Nat) (v : Half) : (s.writeHalf a v).boot = s.boot := rfl

@[simp] theorem State.fillHalves_cfg (s : State) (a n : Nat) (v : Half) : (s.fillHalves a n v).cfg = s.cfg := rfl
@[simp] theorem State.fillHalves_mem (s : State) (a n : Nat) (v : Half) : (s.fillHalves a n v).mem = s.mem.fill a n v := rfl
@[simp] theorem State.fillHalves_latch (s : State) (a n : Nat) (v : Half) : (s.fillHalves a n v).latch = s.latch := rfl
@[simp] theorem State.fillHalves_held (s : State) (a n : Nat) (v : Half) : (s.fillHalves a n v).held = s.held := rfl
@[simp] theorem State.fillHalves_responses (s : State) (a n : Nat) (v : Half) : (s.fillHalves a n v).responses = s.responses := rfl
@[simp] theorem State.fillHalves_channel (s : State) (a n : Nat) (v : Half) : (s.fillHalves a n v).channel = s.channel := rfl
@[simp] theorem State.fillHalves_boot (s : State) (a n : Nat) (v : Half) : (s.fillHalves a n v).boot = s.boot := rfl

@[simp] theorem State.readHold_cfg (s : State) (wa : Nat) : (s.readHold wa).cfg = s.cfg := rfl
@[simp] theorem State.readHold_mem (s : State) (wa : Nat) : (s.readHold wa).mem = s.mem := rfl
@[simp] theorem State.readHold_latch (s : State) (wa : Nat) : (s.readHold wa).latch = s.latch := rfl
@[simp] theorem State.readHold_held (s : State) (wa : Nat) : (s.readHold wa).held = some (s.mem.readLanes wa) := rfl
@[simp] theorem State.readHold_responses (s : State) (wa : Nat) : (s.readHold wa).responses = s.responses := rfl
@[simp] theorem State.readHold_channel (s : State) (wa : Nat) : (s.readHold wa).channel = s.channel := rfl
@[simp] theorem State.readHold_boot (s : State) (wa : Nat) : (s.readHold wa).boot = s.boot := rfl

@[simp] theorem State.respond_cfg (s : State) (e : Bool) (v : Word32) : (s.respond e v).cfg = s.cfg := rfl
@[simp] theorem State.respond_mem (s : State) (e : Bool) (v : Word32) : (s.respond e v).mem = s.mem := rfl
@[simp] theorem State.respond_latch (s : State) (e : Bool) (v : Word32) : (s.respond e v).latch = none := rfl
@[simp] theorem State.respond_held (s : State) (e : Bool) (v : Word32) : (s.respond e v).held = none := rfl
@[simp] theorem State.respond_responses (s : State) (e : Bool) (v : Word32) : (s.respond e v).responses = s.responses ++ [⟨e, v⟩] := rfl
@[simp] theorem State.respond_channel (s : State) (e : Bool) (v : Word32) : (s.respond e v).channel = s.channel := rfl
@[simp] theorem State.respond_boot (s : State) (e : Bool) (v : Word32) : (s.respond e v).boot = s.boot := rfl

@[simp] theorem State.raiseIllegalCommand_cfg (s : State) : (s.raiseIllegalCommand).cfg = s.cfg := rfl
@[simp] theorem State.raiseIllegalCommand_mem (s : State) : (s.raiseIllegalCommand).mem = s.mem := rfl
@[simp] theorem State.raiseIllegalCommand_latch (s : State) : (s.raiseIllegalCommand).latch = none := rfl
@[simp] theorem State.raiseIllegalCommand_held (s : State) : (s.raiseIllegalCommand).held = none := rfl
@[simp] theorem State.raiseIllegalCommand_responses (s : State) : (s.raiseIllegalCommand).responses = s.responses ++ [⟨true, 0#32⟩] := rfl
@[simp] theorem State.raiseIllegalCommand_channel (s : State) : (s.raiseIllegalCommand).channel = s.channel := rfl
@[simp] theorem State.raiseIllegalCommand_boot (s : State) : (s.raiseIllegalCommand).boot = s.boot := rfl

@[simp] theorem State.presentWord_cfg (s : State) (w : Command) : (s.presentWord w).cfg = s.cfg := rfl
@[simp] theorem State.presentWord_mem (s : State) (w : Command) : (s.presentWord w).mem = s.mem := rfl
@[simp] theorem State.presentWord_latch (s : State) (w : Command) : (s.presentWord w).latch = none := rfl
@[simp] theorem State.presentWord_held (s : State) (w : Command) : (s.presentWord w).held = none := rfl
@[simp] theorem State.presentWord_responses (s : State) (w : Command) : (s.presentWord w).responses = s.responses := rfl
@[simp] theorem State.presentWord_channel (s : State) (w : Command) : (s.presentWord w).channel = w :: s.channel := rfl
@[simp] theorem State.presentWord_boot (s : State) (w : Command) : (s.presentWord w).boot = s.boot := rfl

@[simp] theorem hostIssue_cfg (s : State) (w : Command) : (hostIssue w s).cfg = s.cfg := rfl
@[simp] theorem hostIssue_mem (s : State) (w : Command) : (hostIssue w s).mem = s.mem := rfl
@[simp] theorem hostIssue_latch (s : State) (w : Command) : (hostIssue w s).latch = s.latch := rfl
@[simp] theorem hostIssue_held (s : State) (w : Command) : (hostIssue w s).held = s.held := rfl
@[simp] theorem hostIssue_responses (s : State) (w : Command) : (hostIssue w s).responses = s.responses := rfl
@[simp] theorem hostIssue_channel (s : State) (w : Command) : (hostIssue w s).channel = s.channel ++ [w] := rfl
@[simp] theorem hostIssue_boot (s : State) (w : Command) : (hostIssue w s).boot = s.boot := rfl

@[simp] theorem powerCycle_cfg (s : State) : (powerCycle s).cfg = s.cfg := rfl
@[simp] theorem powerCycle_mem (s : State) : (powerCycle s).mem = [] := rfl
@[simp] theorem powerCycle_latch (s : State) : (powerCycle s).latch = none := rfl
@[simp] theorem powerCycle_held (s : State) : (powerCycle s).held = none := rfl
@[simp] theorem powerCycle_responses (s : State) : (powerCycle s).responses = [] := rfl
@[simp] theorem powerCycle_channel (s : State) : (powerCycle s).channel = [] := rfl
@[simp] theorem powerCycle_boot (s : State) : (powerCycle s).boot = s.boot + 1 := rfl

/-! The write of a TPIX splits on the held word; these are its field lemmas. -/

@[simp] theorem State.writeHeld_cfg (s : State) (wa : Nat) (m i : Word32) : (s.writeHeld wa m i).cfg = s.cfg := by
  unfold State.writeHeld; split <;> rfl
@[simp] theorem State.writeHeld_latch (s : State) (wa : Nat) (m i : Word32) : (s.writeHeld wa m i).latch = s.latch := by
  unfold State.writeHeld; split <;> rfl
@[simp] theorem State.writeHeld_responses (s : State) (wa : Nat) (m i : Word32) : (s.writeHeld wa m i).responses = s.responses := by
  unfold State.writeHeld; split <;> rfl
@[simp] theorem State.writeHeld_channel (s : State) (wa : Nat) (m i : Word32) : (s.writeHeld wa m i).channel = s.channel := by
  unfold State.writeHeld; split <;> rfl
@[simp] theorem State.writeHeld_boot (s : State) (wa : Nat) (m i : Word32) : (s.writeHeld wa m i).boot = s.boot := by
  unfold State.writeHeld; split <;> rfl

/-- Read then write of a TPIX: the word read is the one written back. -/
@[simp] theorem State.readHold_writeHeld_mem (s : State) (wa : Nat) (m i : Word32) :
    ((s.readHold wa).writeHeld wa m i).mem = s.mem.writeLanes wa (orWord (maskWord (s.mem.readLanes wa) m) i) := rfl

@[simp] theorem State.readHold_writeHeld_held (s : State) (wa : Nat) (m i : Word32) :
    ((s.readHold wa).writeHeld wa m i).held = none := rfl

/-! What the host's own actions can do, once. -/

@[simp] theorem hostIssue_inFlight (s : State) (w : Command) : inFlight (hostIssue w s) = inFlight s ++ [w] := by
  simp [inFlight]

/-- What a host access that passes its checks has passed (R5, R20, R24, R17). -/
theorem hostAccess_next {p : Params} {w : AccessWidth} {a : Nat} {r : Region} (h : hostAccess p w a = .next r) :
    p.Valid ∧ a + w.bytes ≤ 2 ^ 32 ∧ a % w.bytes = 0 ∧ regionOf p a w.bytes = some r := by
  unfold hostAccess at h
  split at h
  · cases h
  · rename_i hv
    split at h
    · cases h
    · rename_i ha
      split at h
      · cases h
      · rename_i hm
        split at h
        · rename_i r' hr
          cases h
          exact ⟨not_not.1 hv, by omega, not_not.1 hm, hr⟩
        · cases h

/-- Parameters that are not those of a PTU: every host access is refused (R5). -/
theorem hostAccess_notAPtu {p : Params} (hv : ¬ p.Valid) (w : AccessWidth) (a : Nat) : hostAccess p w a = .refused .notAPtu :=
  if_pos hv

/-- A host write that completes: nothing was in flight (R35), and memory alone has changed. -/
theorem hostWrite_next {s t : State} {w : AccessWidth} {a : Nat} {v : Word32} (h : hostWrite w a v s = .next t) :
    ∃ r, hostAccess s.cfg w a = .next r ∧ inFlight s = [] ∧ t = { s with mem := s.mem.write a v w.bytes } := by
  unfold hostWrite at h
  split at h
  · cases h
  · cases h
  · rename_i r hr
    split at h
    · cases h
    · split at h
      · cases h
      · rename_i hf
        exact ⟨r, hr, not_not.1 hf, by cases h; rfl⟩

/-- When nothing is in flight a host access that passes its checks writes (R35). -/
theorem hostWrite_idle {s : State} {w : AccessWidth} {a : Nat} {r : Region} (v : Word32) (hr : hostAccess s.cfg w a = .next r)
    (hf : inFlight s = []) : hostWrite w a v s = .next { s with mem := s.mem.write a v w.bytes } := by
  simp [hostWrite, hr, hf]

/-! A byte's value is decided by memory and the power-up count. -/

theorem State.byteAt_congr {s t : State} (hm : t.mem = s.mem) (hb : t.boot = s.boot) (a : Nat) : t.byteAt a = s.byteAt a := by
  simp [State.byteAt, hm, hb]

theorem State.byteAt_of_get {s t : State} (a : Nat) (hm : t.mem.get a = s.mem.get a) (hb : t.boot = s.boot) :
    t.byteAt a = s.byteAt a := by
  simp [State.byteAt, hm, hb]

theorem State.byteAt_of_some {s : State} {a : Nat} {b : Byte} (h : s.mem.get a = some b) : s.byteAt a = b := by
  simp [State.byteAt, h]

/-! What acceptance can do (R14, R48), once. -/

theorem State.accept_latched {s : State} {w : Command} (h : s.latch = some w) : s.accept = some (w, s) := by
  simp [State.accept, h]

theorem State.accept_waiting {s : State} {w : Command} {ws : List Command} (hl : s.latch = none) (hc : s.channel = w :: ws) :
    s.accept = some (w, { s with latch := some w, channel := ws }) := by
  simp [State.accept, hl, hc]

theorem State.accept_idle {s : State} (hl : s.latch = none) (hc : s.channel = []) : s.accept = none := by
  simp [State.accept, hl, hc]

/-- Every accepted command leaves everything but latch and channel alone. -/
theorem State.accept_frame {s t : State} {w : Command} (h : s.accept = some (w, t)) :
    t.cfg = s.cfg ∧ t.mem = s.mem ∧ t.held = s.held ∧ t.responses = s.responses ∧ t.boot = s.boot ∧ t.latch = some w := by
  unfold State.accept at h
  split at h
  · rename_i v hv
    obtain ⟨rfl, rfl⟩ : v = w ∧ s = t := by simpa using h
    exact ⟨rfl, rfl, rfl, rfl, rfl, hv⟩
  · split at h
    · cases h
    · obtain ⟨rfl, rfl⟩ := by simpa using h
      exact ⟨rfl, rfl, rfl, rfl, rfl, rfl⟩

/-- The commands in flight are the accepted one followed by those in flight after it is gone. -/
theorem State.accept_inFlight {s t : State} {w : Command} (h : s.accept = some (w, t)) : inFlight s = w :: t.channel := by
  unfold State.accept at h
  split at h
  · rename_i v hv
    obtain ⟨rfl, rfl⟩ : v = w ∧ s = t := by simpa using h
    simp [inFlight, hv]
  · rename_i hl
    split at h
    · cases h
    · rename_i v ws hc
      obtain ⟨rfl, rfl⟩ := by simpa using h
      simp [inFlight, hl, hc]

end Sys2Proof.Machine
end

