-- ==== Sys2Proof/Laws/Exec.lean ====
section
/-! SUPPORT. What the meanings and the step can do, said once: the ranges of the address arithmetic after the bounds tests (R8), the memory
after each kind of store, and the one shape every answer has. -/

namespace Sys2Proof.Machine

/-! ## Ranges after the bounds test (R8) -/

theorem ucoord_cast {v : Half} (h : 0 ≤ coord v) : (ucoord v : Int) = v.toInt := by
  unfold ucoord
  unfold coord at h
  omega

theorem fbBytes_eq (p : Params) : p.fbBytes = 2 * (p.fbW * p.fbH) := by
  unfold Params.fbBytes
  ring

theorem fbPixelNumber_lt {p : Params} {x y : Half} (h : fbInBounds p x y) : fbPixelNumber p x y < p.fbW * p.fbH := by
  obtain ⟨⟨hx0, hx1⟩, hy0, hy1⟩ := h
  have hx := ucoord_cast hx0
  have hy := ucoord_cast hy0
  unfold coord at hx1 hy1
  have hxW : ucoord x < p.fbW := by omega
  have hyH : ucoord y < p.fbH := by omega
  have hrow : (ucoord y + 1) * p.fbW ≤ p.fbH * p.fbW := Nat.mul_le_mul_right _ hyH
  have hsplit : (ucoord y + 1) * p.fbW = ucoord y * p.fbW + p.fbW := by ring
  unfold fbPixelNumber
  rw [Nat.mul_comm p.fbW]
  omega

theorem tilePixelNumber_cast {x y : Half} (h : tileInBounds x y) : (tilePixelNumber x y : Int) = x.toInt + y.toInt * 8 := by
  have hx := ucoord_cast h.1.1
  have hy := ucoord_cast h.2.1
  unfold tilePixelNumber
  push_cast
  rw [hx, hy]

theorem tilePixelNumber_lt {x y : Half} (h : tileInBounds x y) : tilePixelNumber x y < 64 := by
  have e := tilePixelNumber_cast h
  obtain ⟨⟨hx0, hx1⟩, hy0, hy1⟩ := h
  unfold coord at *
  omega

/-- Word address plus lane is the pixel's own byte (R23). -/
theorem tileWordAddr_add_lane (p : Params) (t : BitVec 4) (x y : Half) :
    tileWordAddr p t x y + tileLane x y = p.tileBase + 64 * t.toNat + tilePixelNumber x y := by
  unfold tileWordAddr tileBufAddr tileWordNumber tileLane
  omega

/-! ## Memory after each kind of store -/

/-- After the 2-byte store of FBPIX. -/
theorem get_writeHalf (s : State) (a : Nat) (v : Half) (b : Nat) :
    (s.writeHalf a v).mem.get b = if a ≤ b ∧ b < a + 2 then some (v.extractLsb' (8 * (b - a)) 8) else s.mem.get b :=
  Memory.get_write s.mem a v 2 b

/-- After the read-modify-write of TPIX: one byte is decided, every other is as it was (R71, R77). -/
theorem get_readHold_writeHeld (s : State) (t : BitVec 4) (x y : Half) (v : Byte) (b : Nat) :
    ((s.readHold (tileWordAddr s.cfg t x y)).writeHeld (tileWordAddr s.cfg t x y) (laneMask (tileShift x y))
        (laneInsert v (tileShift x y))).mem.get b =
      if b = s.cfg.tileBase + 64 * t.toNat + tilePixelNumber x y then some v else s.mem.get b := by
  rw [State.readHold_writeHeld_mem, ← tileWordAddr_add_lane]
  exact get_rmw s.mem (tileWordAddr s.cfg t x y) (tileLane x y) v (by unfold tileLane; omega) b

/-! ## The shape of every answer -/

/-- A command always answers a next state that differs from the one before in memory, in one admitted response more, and in an empty latch:
no command faults or is refused (R27, R91). -/
theorem exec_answers (i : Instr) (s : State) :
    ∃ m r, AdmittedResponse s.cfg r ∧
      exec i s = .next { s with mem := m, latch := none, held := none, responses := s.responses ++ [r] } := by
  cases i with
  | fbpix x y c =>
    by_cases h : fbInBounds s.cfg x y
    · exact ⟨_, _, .inr (.inl rfl), by show execFbpix x y c s = _; rw [execFbpix, if_pos h]; rfl⟩
    · exact ⟨_, _, .inr (.inl rfl), by show execFbpix x y c s = _; rw [execFbpix, if_neg h]; rfl⟩
  | fbclr c => exact ⟨_, _, .inr (.inl rfl), rfl⟩
  | fbsize => exact ⟨_, _, .inr (.inr (.inl rfl)), rfl⟩
  | tpix t x y v =>
    by_cases ht : t.toNat < s.cfg.ntiles
    · by_cases h : tileInBounds x y
      · exact ⟨_, _, .inr (.inl rfl), by show execTpix t x y v s = _; rw [execTpix, if_pos ht, if_pos h]; rfl⟩
      · exact ⟨_, _, .inr (.inl rfl), by show execTpix t x y v s = _; rw [execTpix, if_pos ht, if_neg h]; rfl⟩
    · exact ⟨_, _, .inl rfl, by show execTpix t x y v s = _; rw [execTpix, if_neg ht]; rfl⟩
  | tsize => exact ⟨_, _, .inr (.inr (.inr rfl)), rfl⟩

/-- The same for a command word, legal or Illegal. -/
theorem runCommand_answers (w : Command) (s : State) :
    ∃ m r, AdmittedResponse s.cfg r ∧
      runCommand w s = .next { s with mem := m, latch := none, held := none, responses := s.responses ++ [r] } := by
  unfold runCommand
  split
  · exact exec_answers _ _
  · exact ⟨_, _, .inl rfl, rfl⟩

/-- A step of a PTU either finds it idle or runs the accepted word. -/
theorem step_cases {s : State} (hv : s.cfg.Valid) :
    (s.accept = none ∧ step s = .next s) ∨ ∃ w s', s.accept = some (w, s') ∧ step s = runCommand w s' := by
  have hs : step s = acceptAndRun s := if_pos hv
  cases ha : s.accept with
  | none => exact .inl ⟨rfl, by rw [hs, acceptAndRun, ha]⟩
  | some c => exact .inr ⟨c.1, c.2, rfl, by rw [hs, acceptAndRun, ha]⟩

/-- The PTU is idle exactly when no command is in flight. -/
theorem accept_eq_none_iff (s : State) : s.accept = none ↔ inFlight s = [] := by
  unfold State.accept inFlight
  cases s.latch <;> cases s.channel <;> simp

end Sys2Proof.Machine
end

