-- ==== Sys2Proof/Laws/PerInstr.lean ====
section
/-! SUPPORT. Facts about every instruction as syntax, one lemma per constructor. -/

namespace Sys2Proof.Laws.EncodedFields

/-- The encoding of an instruction carries its operation code (R44) and a zero reserved field (R41). -/
def Statement (i : Instr) : Prop := fieldOp (encode i) = opcode i ∧ fieldRsv (encode i) = 0#8

theorem fbpix (x y c : Half) : Statement (.fbpix x y c) :=
  ⟨(packCommand_fields _ _ _ _ _).1, (packCommand_fields _ _ _ _ _).2.2.1⟩

theorem fbclr (c : Half) : Statement (.fbclr c) :=
  ⟨(packCommand_fields _ _ _ _ _).1, (packCommand_fields _ _ _ _ _).2.2.1⟩

theorem fbsize : Statement .fbsize :=
  ⟨(packCommand_fields _ _ _ _ _).1, (packCommand_fields _ _ _ _ _).2.2.1⟩

theorem tpix (t : BitVec 4) (x y : Half) (v : Byte) : Statement (.tpix t x y v) :=
  ⟨(packCommand_fields _ _ _ _ _).1, (packCommand_fields _ _ _ _ _).2.2.1⟩

theorem tsize : Statement .tsize :=
  ⟨(packCommand_fields _ _ _ _ _).1, (packCommand_fields _ _ _ _ _).2.2.1⟩

end Sys2Proof.Laws.EncodedFields
end

