-- ==== Sys2Proof/Tests/Slice0.lean ====
section
/-! SUPPORT. The model's own tests: expected results from spec/30_encoding.md section 7, spec/95_test_vectors.md and the rules' own examples,
and for every statement with hypotheses a concrete state that meets them. -/

namespace Sys2Proof.Tests

open Sys2Proof.Machine

/-- A small PTU: a framebuffer of 3 by 2 pixels at 0x100 (12 bytes), two tile buffers at 0x200. -/
def tiny : Params := ⟨3, 2, 0x100, 0x200, 2⟩

/-- A state of the small PTU with memory `m` and the words `ws` on the channel. -/
def tinyState (m : Memory) (ws : List Command) : State := { State.resetWith tiny 0 with mem := m, channel := ws }

/-- The same with the word `w` accepted and not yet answered. -/
def tinyLatched (m : Memory) (w : Command) : State := { State.resetWith tiny 0 with mem := m, latch := some w }

/-- A state of the PTU REF with memory `m`. -/
def refState (m : Memory) : State := { State.reset with mem := m }

/-- The 32-bit word `v` at `a`. -/
def wordAt (a : Nat) (v : Word32) : Memory := Memory.write [] a v 4

/-- The memory an outcome leaves. -/
def memOf : Host.Outcome State Fault Refusal → Option Memory
  | .next t => some t.mem
  | .fault _ => none
  | .refused _ => none

/-- The responses an outcome leaves. -/
def responsesOf : Host.Outcome State Fault Refusal → Option (List Response)
  | .next t => some t.responses
  | .fault _ => none
  | .refused _ => none

/-! ## Well-formedness and parameters -/

theorem test_wf_refuses_tpix_of_a_missing_buffer : Instr.wf tiny (.tpix 2#4 0#16 0#16 0#8) = false := by decide

theorem test_wf_accepts_the_last_buffer : Instr.wf tiny (.tpix 1#4 (-1#16) 9#16 0#8) = true := by decide

theorem test_ref_is_a_ptu : Params.ref.Valid := by decide

/-- One parameter set for each constraint of R4 and R5, each breaking that one. -/
theorem test_parameter_checks_refuse : ∀ p ∈ [
    (⟨0, 2, 0x100, 0x200, 2⟩ : Params), ⟨32768, 1, 0x100, 0x20000, 2⟩, ⟨3, 0, 0x100, 0x200, 2⟩, ⟨1, 32768, 0x100, 0x20000, 2⟩,
    ⟨3, 2, 0x102, 0x200, 2⟩, ⟨3, 2, 0x100, 0x202, 2⟩, ⟨3, 2, 0x100, 0x200, 0⟩, ⟨3, 2, 0x100, 0x200, 17⟩,
    ⟨3, 2, 0xFFFFFFF8, 0x200, 2⟩, ⟨3, 2, 0x100, 0xFFFFFFC0, 2⟩, ⟨3, 2, 0x100, 0x108, 2⟩], ¬ p.Valid := by decide

/-! ## Encoding (30_encoding.md section 7; 95_test_vectors.md 2.8) -/

theorem test_decode_fbpix : decodeTableWord 64 0x100012340005FFFF = some (.fbpix 0xFFFF#16 5#16 0x1234#16) := by decide

theorem test_decode_fbclr : decodeTableWord 64 0x20007FFF00000000 = some (.fbclr 0x7FFF#16) := by decide

theorem test_decode_fbsize : decodeTableWord 64 0x3000000000000000 = some .fbsize := by decide

theorem test_decode_tpix : decodeTableWord 64 0x4200001100030005 = some (.tpix 2#4 5#16 3#16 0x11#8) := by decide

theorem test_decode_tsize : decodeTableWord 64 0x5000000000000000 = some .tsize := by decide

theorem test_encode_printed_words :
    encode (.fbpix 239#16 159#16 0x03E0#16) = 0x100003E0009F00EF#64 ∧ encode (.fbclr 0x7FFF#16) = 0x20007FFF00000000#64 ∧
    encode .fbsize = 0x3000000000000000#64 ∧ encode (.tpix 0#4 7#16 7#16 3#8) = 0x4000000300070007#64 ∧
    encode .tsize = 0x5000000000000000#64 := by decide

/-- Table 2.8: the printed Illegal words, no command's code or FBPIX, FBCLR, FBSIZE with a bit too many. -/
theorem test_illegal_words_framebuffer : ([0x0#64, 0xFFFFFFFFFFFFFFFF#64, 0x6000000000000000#64, 0xF000000000000000#64,
    0x1100000000000000#64, 0x1001000000000000#64, 0x20007FFF00000001#64, 0x20007FFF00010000#64].all
      (fun w => decode Params.ref w == .illegal)) = true := by decide

/-- Table 2.8: the rest of them. -/
theorem test_illegal_words_tile : ([0x3000000100000000#64, 0x3000000000000001#64, 0x4000010000000000#64, 0x4080000100000000#64,
    0x4800000100000000#64, 0x4F00000100000000#64, 0x5100000000000000#64, 0x5000000000000008#64].all
      (fun w => decode Params.ref w == .illegal)) = true := by decide

/-- Table 2.8: the nearest legal neighbours. -/
theorem test_legal_neighbours :
    decode Params.ref 0x1000000000000000#64 = .legal (.fbpix 0#16 0#16 0#16) ∧
    decode Params.ref 0x4700000100000000#64 = .legal (.tpix 7#4 0#16 0#16 1#8) ∧
    decode Params.ref 0x400000FF00000000#64 = .legal (.tpix 0#4 0#16 0#16 0xFF#8) := by decide

/-! ## FBPIX, FBCLR, FBSIZE -/

/-- R61's example: the halfword at 0x060096F0 becomes 0x001F. -/
theorem test_fbpix_example :
    memOf (step (State.reset.withFetchWord 64 0x1000001F00500078)) = some [(0x060096F0, 0x1F#8), (0x060096F1, 0x00#8)] := by decide

/-- Table 2.2: x = FB_W is dropped and does not write pixel (0, 1). -/
theorem test_fbpix_dropped_at_width :
    memOf (step (State.reset.withFetchWord 64 0x10001234000000F0)) = some [] := by decide

/-- R63 on the small PTU: the byte before and the byte after the region stay. -/
theorem test_fbclr_fills_and_stops :
    memOf (exec (.fbclr 0x801F#16) (tinyState [(0xFF, 1#8), (0x104, 2#8), (0x10C, 3#8)] [])) =
      some [(0xFF, 1#8), (0x100, 0x1F#8), (0x101, 0x80#8), (0x102, 0x1F#8), (0x103, 0x80#8), (0x104, 0x1F#8), (0x105, 0x80#8),
        (0x106, 0x1F#8), (0x107, 0x80#8), (0x108, 0x1F#8), (0x109, 0x80#8), (0x10A, 0x1F#8), (0x10B, 0x80#8), (0x10C, 3#8)] := by
  decide

/-- Table 2.4. -/
theorem test_fbsize_ref : responsesOf (exec .fbsize State.reset) = some [⟨false, 0x00A000F0#32⟩] := by decide

theorem test_fbsize_other_parameters : fbSizeVal ⟨32767, 2, 0, 0, 1⟩ = 0x00027FFF#32 ∧ fbSizeVal ⟨1, 1, 0, 0, 1⟩ = 0x00010001#32 := by
  decide

/-! ## TPIX, TSIZE -/

/-- R71's example: 0xAABBCCDD at 0x0300009C becomes 0xAABB11DD. -/
theorem test_tpix_example :
    memOf (exec (.tpix 2#4 5#16 3#16 0x11#8) (refState (wordAt 0x0300009C 0xAABBCCDD#32))) =
      some (wordAt 0x0300009C 0xAABB11DD#32) := by decide

/-- Table 2.6: the lane is cleared before the OR. -/
theorem test_tpix_clears_the_lane :
    memOf (exec (.tpix 0#4 1#16 0#16 0x00#8) (refState (wordAt 0x03000000 0xFFFFFFFF#32))) =
      some (wordAt 0x03000000 0xFFFF00FF#32) := by decide

/-- R72's example: x = 8 writes nothing. -/
theorem test_tpix_dropped_at_eight :
    memOf (exec (.tpix 0#4 8#16 0#16 5#8) (refState (wordAt 0x03000008 0#32))) = some (wordAt 0x03000008 0#32) := by decide

/-- R77: on a word nothing has written, the addressed lane alone gets a value. -/
theorem test_tpix_on_unspecified_word :
    memOf (step (State.reset.withFetchWord 64 0x4000000300070007)) = some [(0x0300003F, 3#8)] := by decide

theorem test_tsize : responsesOf (exec .tsize State.reset) = some [⟨false, 0x00080008#32⟩] := by decide

/-! ## Step -/

/-- R90: P5 command 12, `tpix 9, 0, 0, 1` with NTILES = 8. -/
theorem test_illegal_word_is_answered :
    step (State.reset.withFetchWord 64 0x4900000100000000) = .next { State.reset with responses := [⟨true, 0#32⟩] } := by
  exact rfl

/-- The err bit of the response word is bit 32 (R49). -/
theorem test_response_word : Response.word ⟨true, 0#32⟩ = 0x100000000#33 := by decide

/-! ## Host -/

theorem test_host_word_write_is_little_endian :
    memOf (hostWrite .word 0x200 0x04030201#32 (tinyState [] [])) = some [(0x200, 1#8), (0x201, 2#8), (0x202, 3#8), (0x203, 4#8)] := by
  decide

/-- R35: no host write beside a command in flight, not even beside a TSIZE. -/
theorem test_host_write_beside_a_size_command :
    memOf (hostWrite .half 0x100 0#32 (tinyState [] [0x5000000000000000#64])) = none := by decide

/-- R48: an issued word waits behind the one already waiting. -/
theorem test_issue_queues_behind :
    inFlight (hostIssue 0x5000000000000000#64 (tinyState [] [0x3000000000000000#64])) = [0x3000000000000000#64, 0x5000000000000000#64] := by
  decide

/-- The four ways a host access stops before it starts, and one that passes. -/
theorem test_host_access_checks :
    hostAccess tiny .word 0xFFFFFFFE = .fault .noSuchAddress ∧ hostAccess tiny .half 0x101 = .refused .misalignedHostAccess ∧
    hostAccess tiny .byte 0x10C = .refused .outsideRegions ∧ hostAccess ⟨3, 2, 0x101, 0x200, 2⟩ .byte 0x101 = .refused .notAPtu ∧
    hostAccess tiny .half 0x10A = .next .framebuffer := by
  exact ⟨rfl, rfl, rfl, rfl, rfl⟩

/-! ## Colours (95_test_vectors.md 2.9) -/

theorem test_pack15 :
    pack15 ⟨31, 31, 31⟩ = some 0x7FFF#16 ∧ pack15 ⟨31, 0, 0⟩ = some 0x001F#16 ∧ pack15 ⟨0, 31, 0⟩ = some 0x03E0#16 ∧
    pack15 ⟨0, 0, 31⟩ = some 0x7C00#16 ∧ pack15 ⟨1, 2, 3⟩ = some 0x0C41#16 ∧ pack15 ⟨32, 0, 0⟩ = none := by decide

theorem test_unpack15 : unpack15 0x801F#16 = ⟨31, 0, 0⟩ ∧ unpack15 0x1110#16 = ⟨16, 8, 4⟩ := by decide

/-- PAL_N = 4 with a duplicate; index 0 is not scanned. -/
theorem test_pal_lookup :
    palLookup [0#15, 0x001F#15, 0x03E0#15, 0x001F#15] 0x001F#15 = some 1 ∧
    palLookup [0#15, 0x001F#15, 0x03E0#15, 0x001F#15] 0x03E0#15 = some 2 ∧
    palLookup [0#15, 0x001F#15, 0x03E0#15, 0x001F#15] 0x7C00#15 = none ∧
    palLookup [0#15, 0x001F#15, 0x03E0#15, 0x001F#15] 0#15 = none := by decide

/-! ## Assembler (30_encoding.md section 7) -/

theorem test_assemble_corner : assembleLine "tpix 0, 7, 7, 3".toList = .word 0x4000000300070007#64 := by decide

theorem test_assemble_refuses_missing_operand : assembleLine "fbpix 1, 2".toList = .refused := by decide

/-! ## Environment rules -/

/-- Log 26: a vertical blank of the set-up, acknowledged after the interrupt is enabled, releases the first wait. -/
theorem test_early_vblank_is_remembered :
    ((((Platform.start State.reset).next .vblank).bind (Platform.next .enableInterrupt)).bind (Platform.next .acknowledge)).map
      Platform.phase = some .active := by decide

/-- R101: a fatal error does not strike while a word is unanswered (log 27), and strikes once it is answered. -/
theorem test_fatal_between_draw_calls :
    Platform.next .fatal ⟨tinyState [] [0x5000000000000000#64], .active, false, false⟩ = none ∧
    ((Platform.next .fatal ⟨tinyState [] [], .active, false, false⟩).map Platform.halted) = some true := by decide

theorem test_no_command_while_idle : Platform.next (.issue 0#64) ⟨State.reset, .idle, false, false⟩ = none := by decide

/-- R17, R76: the foreground rebuilds a word of a tile buffer in the set-up. -/
theorem test_foreground_writes_in_setup :
    ((Platform.start (tinyState [] [])).next (.write .byte 0x200 0x07#32)).map (fun q => q.ptu.mem) = some [(0x200, 7#8)] := by decide

/-! ## Witnesses: the hypotheses of each statement are met -/

theorem witness_StepRunsTheDecodedCommand :
    (∃ (s : State) (w : Command) (i : Instr), s.cfg.Valid ∧ decode s.cfg w = .legal i ∧ s.latch = some w) ∧
    (∃ (s : State) (w : Command) (i : Instr) (ws : List Command), s.cfg.Valid ∧ decode s.cfg w = .legal i ∧ s.latch = none ∧ s.channel = w :: ws) :=
  ⟨⟨tinyLatched [] 0x3000000000000000#64, 0x3000000000000000#64, .fbsize, by decide⟩,
    ⟨tinyState [] [0x5000000000000000#64], 0x5000000000000000#64, .tsize, [], by decide⟩⟩

theorem witness_IllegalWordIsReportedAndChangesNothing :
    (∃ (s : State) (w : Command), s.cfg.Valid ∧ decode s.cfg w = .illegal ∧ s.latch = some w) ∧
    (∃ (s : State) (w : Command) (ws : List Command), s.cfg.Valid ∧ decode s.cfg w = .illegal ∧ s.latch = none ∧ s.channel = w :: ws) :=
  ⟨⟨tinyLatched [] 0#64, 0#64, by decide⟩, ⟨tinyState [] [0x4200000000000000#64], 0x4200000000000000#64, [], by decide⟩⟩

theorem witness_IdlePtuDoesNothing : ∃ s : State, s.cfg.Valid ∧ inFlight s = [] := ⟨State.reset, by decide⟩

/-- Both sides of the equivalence: a PTU, and a parameter set that is none. -/
theorem witness_StepStopsExactlyOnInvalidParameters :
    (∃ s : State, s.cfg.Valid) ∧ ∃ s : State, ¬ s.cfg.Valid :=
  ⟨⟨State.reset, by decide⟩, ⟨State.resetWith ⟨3, 2, 0x101, 0x200, 2⟩ 0, by decide⟩⟩

theorem witness_ResetIsEmptyAndTheFirstCommandRuns : ∃ (p : Params) (w : Command) (i : Instr), p.Valid ∧ decode p w = .legal i :=
  ⟨tiny, 0x3000000000000000#64, .fbsize, by decide⟩

theorem witness_PowerCycleAbandonsWhatIsInFlight : ∃ s : State, s.cfg.Valid := ⟨State.reset, by decide⟩

theorem witness_ResetMeetsTheInvariant : ∃ p : Params, p.Valid := ⟨tiny, by decide⟩

/-- A state with bytes written, a command in flight that holds a word, and a response given. -/
def busy : State :=
  { State.resetWith tiny 1 with
    mem := [(0x100, 1#8), (0x200, 2#8)], latch := some 0x4000000300000000#64, held := some ⟨some 2#8, none, none, none⟩,
    responses := [⟨false, 0x00020003#32⟩], channel := [0#64] }

theorem busy_inv : busy.Inv := by decide

/-- R100: a power cycle ends the loop and a halt. -/
theorem test_power_cycle_ends_a_halt :
    ((Platform.next .powerCycle ⟨busy, .active, true, true⟩).map Platform.halted) = some false := by decide

theorem witness_StepKeepsTheInvariant : ∃ s t : State, s.Inv ∧ step s = .next t := ⟨busy, _, busy_inv, rfl⟩

theorem witness_HostActionsKeepTheInvariant :
    (∃ s r t, State.Inv s ∧ takeResponse s = some (r, t)) ∧ (∃ s w a v t, State.Inv s ∧ hostWrite w a v s = .next t) :=
  ⟨⟨busy, _, _, busy_inv, rfl⟩, ⟨tinyState [] [], .half, 0x10A, 0xFFFF#32, _, by decide, rfl⟩⟩

theorem witness_NoStepChangesTheParameters : ∃ s t : State, step s = .next t := ⟨busy, _, rfl⟩

theorem witness_DecodeAgreesWithMatchAndMask :
    ∃ r ∈ opcodeTable, ∃ w : Command, r.Matches w ∧ r.mnemonic = "TPIX" :=
  ⟨⟨"TPIX", 0x4000000000000000#64, 0xF0FFFF0000000000#64⟩, by decide, 0x4200001100030005#64, by decide⟩

theorem witness_IllegalWordsAreExactlyThese : ∃ (s : State) (w : Command), decode s.cfg w = .illegal := ⟨State.reset, 0#64, by decide⟩

theorem witness_DecodeOfEncode : ∃ p, Instr.wf p (.tpix 7#4 0#16 0#16 0#8) = true := ⟨Params.ref, by decide⟩

theorem witness_EncodeOfDecode : ∃ p w i, decode p w = .legal i := ⟨Params.ref, 0x4700000100000000#64, .tpix 7#4 0#16 0#16 1#8, by decide⟩

/-- Boundary values: the last pixel of the surface. -/
theorem witness_FbpixStoresOneHalfword :
    ∃ (s : State) (x y : Half) (a : Nat), 0 ≤ x.toInt ∧ x.toInt < s.cfg.fbW ∧ 0 ≤ y.toInt ∧ y.toInt < s.cfg.fbH ∧
      (a : Int) = s.cfg.fbBase + 2 * (y.toInt * s.cfg.fbW + x.toInt) :=
  ⟨tinyState [] [], 2#16, 1#16, 0x10A, by decide⟩

/-- Each of the four ways to be out of bounds, at its first value. -/
theorem witness_FbpixOutOfBoundsIsSilent :
    ((-1#16 : Half).toInt < 0) ∧ ((tiny.fbW : Int) ≤ (3#16 : Half).toInt) ∧ ((tiny.fbH : Int) ≤ (2#16 : Half).toInt) := by decide

theorem witness_FbclrFillsTheFramebuffer : ∃ (s : State) (k : Nat), k < s.cfg.fbW * s.cfg.fbH := ⟨tinyState [] [], 5, by decide⟩

theorem witness_FbsizeReportsWidthAndHeight : ∃ p : Params, p.Valid := ⟨⟨32767, 1, 0, 0x20000, 16⟩, by decide⟩

theorem witness_FramebufferPixelsDoNotOverlap :
    ∃ (p : Params) (x y x' y' : Half), fbInBounds p x y ∧ fbInBounds p x' y' ∧ (x, y) ≠ (x', y') :=
  ⟨tiny, 2#16, 0#16, 0#16, 1#16, by decide⟩

theorem witness_ClearThenOnePixel : ∃ (s : State) (x y x' y' : Half), fbInBounds s.cfg x y ∧ fbInBounds s.cfg x' y' ∧ (x', y') ≠ (x, y) :=
  ⟨tinyState [] [], 0#16, 0#16, 1#16, 0#16, by decide⟩

/-- Boundary values: pixel (7, 7) of the last buffer. -/
theorem witness_TpixReplacesOneByteLane :
    ∃ (s : State) (t : BitVec 4) (x y : Half) (i sh wa : Nat), t.toNat < s.cfg.ntiles ∧ 0 ≤ x.toInt ∧ x.toInt < 8 ∧ 0 ≤ y.toInt ∧
      y.toInt < 8 ∧ (i : Int) = x.toInt + y.toInt * 8 ∧ sh = (i % 4) * 8 ∧ wa = s.cfg.tileBase + 64 * t.toNat + 4 * (i / 4) :=
  ⟨tinyState [] [], 1#4, 7#16, 7#16, 63, 24, 0x27C, by decide⟩

theorem witness_TpixOutOfBoundsIsSilent :
    ∃ (s : State) (t : BitVec 4), t.toNat < s.cfg.ntiles ∧ (-1#16 : Half).toInt < 0 ∧ 8 ≤ (8#16 : Half).toInt :=
  ⟨tinyState [] [], 1#4, by decide⟩

theorem witness_TpixOfAMissingBufferIsIllegal : ∃ (s : State) (t : BitVec 4), s.cfg.ntiles ≤ t.toNat := ⟨tinyState [] [], 2#4, by decide⟩

theorem witness_TpixInsertsIntoUnspecifiedContents :
    ∃ (s : State) (t : BitVec 4) (x y : Half), t.toNat < s.cfg.ntiles ∧ tileInBounds x y := ⟨State.reset, 7#4, 7#16, 7#16, by decide⟩

theorem witness_TpixEqualsAByteStore :
    ∃ (s : State) (t : BitVec 4) (x y : Half), s.Inv ∧ t.toNat < s.cfg.ntiles ∧ tileInBounds x y := ⟨busy, 1#4, 7#16, 7#16, by decide⟩

theorem witness_TpixOfDifferentPixelsCommute :
    ∃ (s : State) (t t' : BitVec 4) (x y x' y' : Half), s.Inv ∧ t.toNat < s.cfg.ntiles ∧ t'.toNat < s.cfg.ntiles ∧
      (t, x, y) ≠ (t', x', y') ∧ tileInBounds x y ∧ tileInBounds x' y' :=
  ⟨busy, 0#4, 1#4, 0#16, 0#16, 0#16, 0#16, by decide⟩

theorem witness_TpixStaysInItsBuffer :
    ∃ (s : State) (t t' : BitVec 4) (b : Nat), t' ≠ t ∧ s.cfg.tileBase + 64 * t'.toNat ≤ b ∧ b < s.cfg.tileBase + 64 * t'.toNat + 64 :=
  ⟨tinyState [] [], 0#4, 1#4, 0x27F, by decide⟩

theorem witness_SixtyFourTpixSetABuffer :
    ∃ (s : State) (t : BitVec 4) (v : Nat → Byte), s.cfg.Valid ∧ t.toNat < s.cfg.ntiles ∧ s.latch = none ∧
      s.channel = (List.range 64).map
        (fun i => encode (.tpix t (BitVec.ofNat 16 (i % 8)) (BitVec.ofNat 16 (i / 8)) (v i))) :=
  ⟨tinyState [] ((List.range 64).map
      (fun i => encode (.tpix 1#4 (BitVec.ofNat 16 (i % 8)) (BitVec.ofNat 16 (i / 8)) (BitVec.ofNat 8 i)))),
    1#4, BitVec.ofNat 8, by decide, by decide, rfl, rfl⟩

/-- A fill of the six pixels as words and halfwords, out of order, one pixel twice. -/
def mixedFill (c : Half) : List Transaction :=
  [.writeHalf 0x10A c, .writeWord 0x104 (pairWord c), .writeHalf 0x108 c, .writeWord 0x100 (pairWord c), .writeHalf 0x102 c]

theorem mixedFill_is_traffic (c : Half) : FillTraffic tiny c (mixedFill c) := by
  refine ⟨fun t ht => ?_, fun k hk => ?_⟩
  · simp only [mixedFill, List.mem_cons, List.not_mem_nil, or_false] at ht
    rcases ht with rfl | rfl | rfl | rfl | rfl
    · exact ⟨rfl, 5, by decide, rfl⟩
    · exact ⟨rfl, 1, by decide, rfl⟩
    · exact ⟨rfl, 4, by decide, rfl⟩
    · exact ⟨rfl, 0, by decide, rfl⟩
    · exact ⟨rfl, 1, by decide, rfl⟩
  · have hk6 : k < 6 := hk
    obtain rfl | rfl | rfl | rfl | rfl | rfl : k = 0 ∨ k = 1 ∨ k = 2 ∨ k = 3 ∨ k = 4 ∨ k = 5 := by omega
    · exact ⟨.writeWord 0x100 (pairWord c), by simp [mixedFill], .inl rfl⟩
    · exact ⟨.writeHalf 0x102 c, by simp [mixedFill], .inl rfl⟩
    · exact ⟨.writeWord 0x104 (pairWord c), by simp [mixedFill], .inl rfl⟩
    · exact ⟨.writeWord 0x104 (pairWord c), by simp [mixedFill], .inr ⟨rfl, rfl⟩⟩
    · exact ⟨.writeHalf 0x108 c, by simp [mixedFill], .inl rfl⟩
    · exact ⟨.writeHalf 0x10A c, by simp [mixedFill], .inl rfl⟩

theorem witness_EveryTransactionIsAlignedAndInRegion :
    ∃ (s : State) (i : Instr) (ts : List Transaction), s.cfg.Valid ∧ AdmittedTraffic s i ts ∧ ts ≠ [] :=
  ⟨busy, .fbclr 0x7FFF#16, mixedFill 0x7FFF#16, by decide, mixedFill_is_traffic _, by decide⟩

theorem witness_EffectOnMemoryIsThatOfTheTransactions :
    ∃ (s : State) (i : Instr) (ts : List Transaction), s.Inv ∧ AdmittedTraffic s i ts ∧ ts ≠ [] :=
  ⟨busy, .fbclr 0x7FFF#16, mixedFill 0x7FFF#16, busy_inv, mixedFill_is_traffic _, by decide⟩

theorem witness_NoAddressComputationOverflows :
    ∃ (p : Params) (x y : Half), p.Valid ∧ fbInBounds p x y ∧ tileInBounds x y := ⟨tiny, 2#16, 1#16, by decide⟩

theorem witness_NoStepTouchesMemoryOutsideTheRegions :
    ∃ (s t : State) (a : Nat), step s = .next t ∧ ¬ (s.cfg.inFramebuffer a ∨ s.cfg.inTiles a) := ⟨busy, _, 0x10C, rfl, by decide⟩

/-- A byte of each region, for the clauses about the other target. -/
theorem witness_EachTargetChangesOnlyItsRegion :
    ∃ (s : State) (a b : Nat), s.cfg.Valid ∧ s.cfg.inTiles a ∧ s.cfg.inFramebuffer b := ⟨busy, 0x27F, 0x10B, by decide⟩

theorem witness_LastWriteWins : ∃ s : State, s.Inv := ⟨busy, busy_inv⟩

theorem witness_EachCommandGetsExactlyOneResponse :
    (∃ (s : State) (w : Command) (ws : List Command), s.cfg.Valid ∧ inFlight s = w :: ws) ∧
    (∃ (s : State) (r : Response) (rs : List Response), s.responses = r :: rs) :=
  ⟨⟨busy, _, _, by decide, rfl⟩, ⟨busy, _, _, rfl⟩⟩

theorem witness_ResponseStreamOfAnyProgram : ∃ s : State, s.cfg.Valid ∧ (inFlight s).length = 2 := ⟨busy, by decide⟩

theorem witness_RunIsCleanIffNoWordIsIllegal :
    ∃ s t : State, s.cfg.Valid ∧ s.Clean ∧ Sys2Proof.core.run (inFlight s).length s = .next t := ⟨busy, _, by decide, by decide, rfl⟩

theorem witness_HostReadsBackWhatItWrote :
    ∃ (s : State) (w : AccessWidth) (a : Nat) (r : Region), hostAccess s.cfg w a = .next r ∧ inFlight s = [] :=
  ⟨tinyState [] [], .word, 0x27C, .tiles, rfl, rfl⟩

theorem witness_HostReadSeesBeforeOrAfter :
    ∃ (s t : State) (c : Command) (w : AccessWidth) (a : Nat) (r : Region), s.cfg.Valid ∧ inFlight s = [c] ∧ isFill s.cfg c = false ∧
      hostAccess s.cfg w a = .next r ∧ step s = .next t :=
  ⟨tinyLatched [] 0x4000000300000000#64, _, 0x4000000300000000#64, .byte, 0x200, .tiles, by decide, rfl, rfl, rfl, rfl⟩

/-- For each clause: a TPIX in flight and a write to the tiles; the same and a write to the framebuffer; a write with nothing in flight; an FBCLR in
flight and a read of the framebuffer. -/
theorem witness_HostAccessesInConflictAreRefused :
    (∃ (s : State) (w : AccessWidth) (a : Nat) (r : Region), hostAccess s.cfg w a = .next r ∧
      ∃ c ∈ inFlight s, targetRegion s.cfg c = some r) ∧
    (∃ (s : State) (w : AccessWidth) (a : Nat) (r : Region), hostAccess s.cfg w a = .next r ∧ inFlight s ≠ [] ∧
      ∀ c ∈ inFlight s, targetRegion s.cfg c ≠ some r) ∧
    (∃ (s : State) (w : AccessWidth) (a : Nat) (r : Region), hostAccess s.cfg w a = .next r ∧ inFlight s = []) ∧
    (∃ (s : State) (w : AccessWidth) (a : Nat), hostAccess s.cfg w a = .next .framebuffer ∧
      ∃ c ∈ inFlight s, isFill s.cfg c = true) :=
  ⟨⟨tinyLatched [] 0x4000000300000000#64, .byte, 0x200, .tiles, rfl, _, List.mem_cons_self, rfl⟩,
    ⟨tinyLatched [] 0x4000000300000000#64, .byte, 0x100, .framebuffer, rfl, List.cons_ne_nil _ _, fun c hc => by
      obtain rfl : c = 0x4000000300000000#64 := by simpa [inFlight, tinyLatched, State.resetWith] using hc
      have h : targetRegion tiny 0x4000000300000000#64 = some .tiles := rfl
      exact fun e => Region.noConfusion (Option.some.inj (h.symm.trans e))⟩,
    ⟨tinyState [] [], .half, 0x10A, .framebuffer, rfl, rfl⟩,
    ⟨tinyLatched [] 0x20007FFF00000000#64, .byte, 0x100, rfl, _, List.mem_cons_self, rfl⟩⟩

/-- A framebuffer point inside, one outside but in the 16-bit range, one outside it; the last pixel of the last tile buffer, the first column outside, a buffer
that does not exist. -/
theorem witness_WideCoordinatesAreClipped :
    ∃ s : State, s.cfg.Valid ∧ inFlight s = [] ∧ (0 ≤ (2 : Int) ∧ (2 : Int) < s.cfg.fbW ∧ 0 ≤ (1 : Int) ∧ (1 : Int) < s.cfg.fbH) ∧
      ¬ ((3 : Int) < s.cfg.fbW) ∧ ¬ fitsCoord 65536 ∧ ¬ fitsCoord (-65536) ∧
      ((1#4).toNat < s.cfg.ntiles ∧ 0 ≤ (7 : Int) ∧ (7 : Int) < 8) ∧ ¬ ((8 : Int) < 8) ∧ ¬ ((2#4).toNat < s.cfg.ntiles) :=
  ⟨tinyState [] [], by decide⟩

theorem witness_PackIsTotalAndInjectiveInRange : ∃ c d w, pack15 c = some w ∧ pack15 d = some w := ⟨⟨31, 0, 0⟩, ⟨31, 0, 0⟩, 0x001F#16, by decide⟩

theorem witness_UnpackUndoesPack : ∃ c w, pack15 c = some w := ⟨⟨1, 2, 3⟩, 0x0C41#16, by decide⟩

/-- A palette of R83 with a colour in it and one that is absent; a table one entry too long, whose last entry is the colour. -/
theorem witness_AbsentColourIsNotAliasedToZero :
    (∃ (pal : Palette) (c d : Colour), pal.Valid ∧ tileIndex pal (.default 0#8) c = some 0#8 ∧ palLookup pal c = none ∧
      palLookup pal d = some 1) ∧
    (∃ (pal : Palette) (c : Colour), pal.length = 257 ∧ palLookup pal c = some 256) :=
  ⟨⟨[0#15, 5#15], 7#15, 5#15, by decide⟩, ⟨List.replicate 256 0#15 ++ [5#15], 5#15, by decide +kernel⟩⟩

/-- The foreground writes, and takes a response; the two ways Idle is left. -/
theorem witness_InterruptContextNeverDraws :
    (∃ q r : Platform, q.next (.write .half 0x10A 0xFFFF#32) = some r) ∧ (∃ q r : Platform, q.next .take = some r) ∧
    (∃ q r : Platform, q.next .acknowledge = some r ∧ q.phase = .idle ∧ r.phase ≠ .idle) ∧
    (∃ q r : Platform, q.next .powerCycle = some r ∧ q.phase = .idle ∧ r.phase ≠ .idle) :=
  ⟨⟨Platform.start (tinyState [] []), _, rfl⟩, ⟨⟨busy, .active, false, false⟩, _, rfl⟩,
    ⟨⟨State.reset, .idle, true, false⟩, _, rfl, rfl, by decide⟩, ⟨⟨State.reset, .idle, false, false⟩, _, rfl, rfl, by decide⟩⟩

/-- A halted program outside the set-up, and a command that completes beside another. -/
theorem witness_OnlyAPowerCycleTearsDown :
    (∃ q r : Platform, q.next .vblank = some r ∧ q.phase ≠ .setup ∧ q.halted = true) ∧
    (∃ q r : Platform, q.next .ptuStep = some r ∧ inFlight r.ptu ≠ []) :=
  ⟨⟨⟨State.reset, .idle, false, true⟩, _, rfl, by decide⟩, ⟨⟨busy, .active, false, false⟩, _, rfl, by decide⟩⟩

theorem witness_AHaltLeavesThePtuIdle :
    (∃ q r : Platform, (q.halted = true → inFlight q.ptu = []) ∧ q.next .fatal = some r ∧ q.halted = false) ∧
    (∃ q r : Platform, (q.halted = true → inFlight q.ptu = []) ∧ q.next .ptuStep = some r ∧ q.halted = true) :=
  ⟨⟨⟨State.reset, .active, false, false⟩, _, by decide, rfl, rfl⟩, ⟨⟨State.reset, .active, false, true⟩, _, by decide, rfl, rfl⟩⟩

theorem witness_NothingIsInFlightWhileIdle :
    ∃ (e : FrameEvent) (q r : Platform), (q.phase = .idle → inFlight q.ptu = []) ∧ q.next e = some r ∧ r.phase = .idle :=
  ⟨.frameDone, ⟨State.reset, .active, false, false⟩, _, by decide, rfl, rfl⟩

end Sys2Proof.Tests
end

section
/-! SUPPORT. The statements of 00_scope.md. First the facts they share: what each command does branch by branch, the address ranges after the
bounds tests (R8), what a completed command or step can have done; then the four statements. -/

namespace Sys2Proof.Machine

/-! ## The meaning of each command, branch by branch (R61 to R75) -/

theorem exec_fbpix_of_inBounds {s : State} {x y : Half} (h : fbInBounds s.cfg x y) (c : Half) :
    exec (.fbpix x y c) s = .next ((s.writeHalf (fbPixelAddr s.cfg x y) c).respond false 0#32) := if_pos h

theorem exec_fbpix_of_not_inBounds {s : State} {x y : Half} (h : ¬ fbInBounds s.cfg x y) (c : Half) :
    exec (.fbpix x y c) s = .next (s.respond false 0#32) := if_neg h

theorem exec_fbclr (c : Half) (s : State) :
    exec (.fbclr c) s = .next ((s.fillHalves s.cfg.fbBase s.cfg.pixels c).respond false 0#32) := rfl

theorem exec_fbsize (s : State) : exec .fbsize s = .next (s.respond false (fbSizeVal s.cfg)) := rfl

theorem exec_tpix_of_inBounds {s : State} {t : BitVec 4} {x y : Half} (ht : t.toNat < s.cfg.ntiles) (h : tileInBounds x y) (v : Byte) :
    exec (.tpix t x y v) s = .next (((s.readHold (tileWordAddr s.cfg t x y)).writeHeld (tileWordAddr s.cfg t x y)
      (laneMask (tileShift x y)) (laneInsert v (tileShift x y))).respond false 0#32) :=
  (if_pos ht).trans (if_pos h)

theorem exec_tpix_of_not_inBounds {s : State} {t : BitVec 4} {x y : Half} (ht : t.toNat < s.cfg.ntiles) (h : ¬ tileInBounds x y)
    (v : Byte) : exec (.tpix t x y v) s = .next (s.respond false 0#32) :=
  (if_pos ht).trans (if_neg h)

theorem exec_tpix_of_no_buffer {s : State} {t : BitVec 4} (ht : ¬ t.toNat < s.cfg.ntiles) (x y : Half) (v : Byte) :
    exec (.tpix t x y v) s = .next s.raiseIllegalCommand := if_neg ht

theorem exec_tsize (s : State) : exec .tsize s = .next (s.respond false tileSizeVal) := rfl

/-! ## Address ranges after the bounds tests (R8) -/

theorem fbPixelNumber_cast {p : Params} {x y : Half} (h : fbInBounds p x y) :
    (fbPixelNumber p x y : Int) = y.toInt * p.fbW + x.toInt := by
  unfold fbPixelNumber
  push_cast
  rw [ucoord_cast h.1.1, ucoord_cast h.2.1]

/-- The last byte of the framebuffer region has an address (R5). -/
theorem fbBase_add_pixels_le {p : Params} (hv : p.Valid) : p.fbBase + 2 * p.pixels ≤ 2 ^ 32 := by
  obtain ⟨-, -, -, -, -, hfb, -, -⟩ := hv
  rwa [fbBytes_eq] at hfb

theorem fbPixelAddr_add_two_le {p : Params} {x y : Half} (hv : p.Valid) (h : fbInBounds p x y) :
    fbPixelAddr p x y + 2 ≤ 2 ^ 32 := by
  have hk : fbPixelNumber p x y < p.pixels := fbPixelNumber_lt h
  have hfb := fbBase_add_pixels_le hv
  unfold fbPixelAddr fbAddr
  omega

theorem tileWordNumber_le {x y : Half} (h : tileInBounds x y) : tileWordNumber x y ≤ 15 := by
  have := tilePixelNumber_lt h
  unfold tileWordNumber
  omega

theorem tileShift_eq (x y : Half) : tileShift x y = 0 ∨ tileShift x y = 8 ∨ tileShift x y = 16 ∨ tileShift x y = 24 := by
  unfold tileShift tileLane
  omega

theorem tileWordAddr_add_four_le {p : Params} {t : BitVec 4} {x y : Half} (hv : p.Valid) (ht : t.toNat < p.ntiles)
    (h : tileInBounds x y) : tileWordAddr p t x y + 4 ≤ 2 ^ 32 := by
  obtain ⟨-, -, -, -, -, -, htiles, -⟩ := hv
  have hw := tileWordNumber_le h
  unfold Params.tileBytes at htiles
  unfold tileWordAddr tileBufAddr
  omega

/-! ## What a completed command has done -/

/-- A command word always completes (R27, R91, R90). -/
theorem runCommand_completes (w : Command) (s : State) : ∃ t, runCommand w s = .next t := by
  obtain ⟨m, r, -, h⟩ := runCommand_answers w s
  exact ⟨_, h⟩

/-- A completed word has been answered by a response R49 admits. -/
theorem runCommand_answered {w : Command} {s t : State} (h : runCommand w s = .next t) :
    ∃ r, AdmittedResponse s.cfg r ∧ Answered s t r := by
  obtain ⟨m, r, hr, hm⟩ := runCommand_answers w s
  cases hm.symm.trans h
  exact ⟨r, hr, rfl, rfl, rfl, rfl, rfl, rfl⟩

/-- Every store of a command on a PTU ends inside the 32-bit space (R8), so memory stays in canonical form. -/
theorem exec_keeps_wf {i : Instr} {s t : State} (hv : s.cfg.Valid) (hm : s.mem.wf) (h : exec i s = .next t) : t.mem.wf := by
  cases i with
  | fbpix x y c =>
    by_cases hb : fbInBounds s.cfg x y
    · cases (exec_fbpix_of_inBounds hb c).symm.trans h
      exact Memory.wf_write c 2 hm (fbPixelAddr_add_two_le hv hb)
    · cases (exec_fbpix_of_not_inBounds hb c).symm.trans h
      exact hm
  | fbclr c =>
    cases (exec_fbclr c s).symm.trans h
    exact Memory.wf_fill c hm (fbBase_add_pixels_le hv)
  | fbsize =>
    cases (exec_fbsize s).symm.trans h
    exact hm
  | tpix b x y v =>
    by_cases hb : b.toNat < s.cfg.ntiles
    · by_cases hxy : tileInBounds x y
      · cases (exec_tpix_of_inBounds hb hxy v).symm.trans h
        exact Memory.wf_writeLanes _ hm (tileWordAddr_add_four_le hv hb hxy)
      · cases (exec_tpix_of_not_inBounds hb hxy v).symm.trans h
        exact hm
    · cases (exec_tpix_of_no_buffer hb x y v).symm.trans h
      exact hm
  | tsize =>
    cases (exec_tsize s).symm.trans h
    exact hm

theorem runCommand_keeps_wf {w : Command} {s t : State} (hv : s.cfg.Valid) (hm : s.mem.wf) (h : runCommand w s = .next t) :
    t.mem.wf := by
  unfold runCommand at h
  split at h
  · exact exec_keeps_wf hv hm h
  · cases h
    exact hm

theorem runCommand_keeps_inv {w : Command} {s t : State} (hs : s.Inv) (h : runCommand w s = .next t) : t.Inv := by
  obtain ⟨hv, hm, -, hresp⟩ := hs
  obtain ⟨r, hr, ans⟩ := runCommand_answered h
  refine ⟨ans.cfg ▸ hv, runCommand_keeps_wf hv hm h, fun _ => ans.held, fun q hq => ?_⟩
  rw [ans.cfg]
  rw [ans.responses, List.mem_append, List.mem_singleton] at hq
  rcases hq with hq | rfl
  · exact hresp q hq
  · exact hr

/-- Acceptance fills the latch and touches nothing else the invariant speaks of. -/
theorem accept_keeps_inv {s s' : State} {w : Command} (hs : s.Inv) (h : s.accept = some (w, s')) : s'.Inv := by
  obtain ⟨hv, hm, -, hresp⟩ := hs
  obtain ⟨hcfg, hmem, -, hresponses, -, hlatch⟩ := State.accept_frame h
  unfold State.Inv
  rw [hcfg, hmem, hresponses, hlatch]
  exact ⟨hv, hm, nofun, hresp⟩

/-! ## What a step can do -/

theorem step_of_not_valid {s : State} (hv : ¬ s.cfg.Valid) : step s = .refused .notAPtu := if_neg hv

theorem step_completes {s : State} (hv : s.cfg.Valid) : ∃ t, step s = .next t := by
  rcases step_cases hv with ⟨-, h⟩ | ⟨w, s', -, h⟩
  · exact ⟨s, h⟩
  · exact h ▸ runCommand_completes w s'

/-- A step that answers found a PTU, and left it idle as it was or ran the accepted word. -/
theorem step_next {s t : State} (h : step s = .next t) :
    s.cfg.Valid ∧ (t = s ∨ ∃ w s', s.accept = some (w, s') ∧ runCommand w s' = .next t) := by
  by_cases hv : s.cfg.Valid
  · refine ⟨hv, ?_⟩
    rcases step_cases hv with ⟨-, hidle⟩ | ⟨w, s', ha, hrun⟩
    · cases hidle.symm.trans h
      exact .inl rfl
    · exact .inr ⟨w, s', ha, hrun.symm.trans h⟩
  · cases (step_of_not_valid hv).symm.trans h

theorem step_eq_notAPtu_iff (s : State) : step s = .refused .notAPtu ↔ ¬ s.cfg.Valid := by
  refine ⟨fun h hv => ?_, step_of_not_valid⟩
  obtain ⟨t, ht⟩ := step_completes hv
  cases ht.symm.trans h

/-! ## Where a host access is refused as notAPtu (R5, U5; log 22) -/

theorem hostAccess_ne_notAPtu {p : Params} (hv : p.Valid) (w : AccessWidth) (a : Nat) : hostAccess p w a ≠ .refused .notAPtu := by
  unfold hostAccess
  rw [if_neg (not_not.2 hv)]
  repeat' split
  all_goals simp

theorem hostRead_eq_notAPtu_iff (seen : Nat) (w : AccessWidth) (a : Nat) (s : State) :
    hostRead seen w a s = .refused .notAPtu ↔ ¬ s.cfg.Valid := by
  refine ⟨fun h hv => ?_, fun hv => by simp [hostRead, hostAccess_notAPtu hv]⟩
  unfold hostRead at h
  split at h
  case h_1 => cases h
  case h_2 r hr =>
    cases h
    exact hostAccess_ne_notAPtu hv w a hr
  case h_3 => split at h <;> cases h

theorem hostWrite_eq_notAPtu_iff (w : AccessWidth) (a : Nat) (v : Word32) (s : State) :
    hostWrite w a v s = .refused .notAPtu ↔ ¬ s.cfg.Valid := by
  refine ⟨fun h hv => ?_, fun hv => by simp [hostWrite, hostAccess_notAPtu hv]⟩
  unfold hostWrite at h
  split at h
  case h_1 => cases h
  case h_2 r hr =>
    cases h
    exact hostAccess_ne_notAPtu hv w a hr
  case h_3 =>
    split at h
    · cases h
    · split at h <;> cases h

/-! ## The statements -/

/-- Settles O9: an idle step changes nothing; otherwise acceptance, then the run of the accepted word, keep the invariant. -/
theorem stepKeepsTheInvariant : Obligations.StepKeepsTheInvariant := by
  intro s t hs h
  obtain ⟨-, rfl | ⟨w, s', ha, hrun⟩⟩ := step_next h
  · exact hs
  · exact runCommand_keeps_inv (accept_keeps_inv hs ha) hrun

/-- Settles O4: a PTU completes every step, and the check of the parameters is the only source of notAPtu in `step`, `hostRead` and
`hostWrite`. -/
theorem stepStopsExactlyOnInvalidParameters : Obligations.StepStopsExactlyOnInvalidParameters := fun s =>
  ⟨step_eq_notAPtu_iff s, step_completes, fun seen w a v =>
    ⟨hostRead_eq_notAPtu_iff seen w a s, hostWrite_eq_notAPtu_iff w a v s⟩⟩

/-- Settles O11: neither acceptance nor the answer to a word writes the parameters or the power-up count. -/
theorem noStepChangesTheParameters : Obligations.NoStepChangesTheParameters := by
  intro s t h
  obtain ⟨-, rfl | ⟨w, s', ha, hrun⟩⟩ := step_next h
  · exact ⟨rfl, rfl⟩
  · obtain ⟨hcfg, -, -, -, hboot, -⟩ := State.accept_frame ha
    obtain ⟨r, -, ans⟩ := runCommand_answered hrun
    exact ⟨ans.cfg.trans hcfg, ans.boot.trans hboot⟩

/-- Settles O35: the bounds tests bound the pixel numbers, and R5 puts both regions inside the 32-bit space. -/
theorem noAddressComputationOverflows : Obligations.NoAddressComputationOverflows := by
  intro p x y hv
  constructor
  · intro h
    exact ⟨fbPixelNumber_cast h, Nat.le_sub_one_of_lt (fbPixelNumber_lt h), fbPixelAddr_add_two_le hv h⟩
  · intro h
    exact ⟨tilePixelNumber_cast h, Nat.le_of_lt_succ (tilePixelNumber_lt h), tileWordNumber_le h, tileShift_eq x y,
      fun _ ht => tileWordAddr_add_four_le hv ht h⟩

end Sys2Proof.Machine
end

section
/-! SUPPORT. The statements of 10_state.md. First the facts they share: what the host's own actions keep, the response each word gets
(R15, R49), what one step and a run of steps do to the commands in flight, and what each event around the PTU can do (R95 to R101); then the
statements. -/

namespace Sys2Proof.Machine

/-! ## The host's actions and the invariant -/

/-- The host takes the oldest response, once, and nothing else changes (R15). -/
theorem takeResponse_eq_some_iff {s t : State} {r : Response} :
    takeResponse s = some (r, t) ↔ ∃ rs, s.responses = r :: rs ∧ t = { s with responses := rs } := by
  unfold takeResponse
  cases s.responses with
  | nil => simp
  | cons q qs => simp [@eq_comm _ t]

theorem resetWith_inv {p : Params} (hv : p.Valid) (boot : Nat) : (State.resetWith p boot).Inv :=
  ⟨hv, Memory.wf_nil, fun _ => rfl, nofun⟩

/-- The invariant does not speak of the waiting words, which alone change. -/
theorem hostIssue_keeps_inv {s : State} (hs : s.Inv) (w : Command) : (hostIssue w s).Inv := hs

theorem takeResponse_keeps_inv {s t : State} {r : Response} (hs : s.Inv) (h : takeResponse s = some (r, t)) : t.Inv := by
  obtain ⟨hv, hm, hheld, hresp⟩ := hs
  obtain ⟨rs, hrs, rfl⟩ := takeResponse_eq_some_iff.1 h
  exact ⟨hv, hm, hheld, fun q hq => hresp q (hrs ▸ List.mem_cons_of_mem r hq)⟩

/-- A host write that completes has ended inside the 32-bit space (R20). -/
theorem hostWrite_keeps_inv {s t : State} {w : AccessWidth} {a : Nat} {v : Word32} (hs : s.Inv) (h : hostWrite w a v s = .next t) :
    t.Inv := by
  obtain ⟨hv, hm, hheld, hresp⟩ := hs
  obtain ⟨r, hr, -, rfl⟩ := hostWrite_next h
  obtain ⟨-, hend, -, -⟩ := hostAccess_next hr
  exact ⟨hv, Memory.wf_write v w.bytes hm hend, hheld, hresp⟩

theorem powerCycle_keeps_inv {s : State} (hs : s.Inv) : (powerCycle s).Inv := resetWith_inv hs.1 (s.boot + 1)

/-! ## The response of each word (R15, R49) -/

/-- Two sizes below 2^16 packed in one word are the number R65 gives: the fields do not overlap. -/
theorem packSize_eq_ofNat {w h : Nat} (hw : w < 2 ^ 16) (hh : h < 2 ^ 16) : packSize w h = BitVec.ofNat 32 (h * 2 ^ 16 + w) := by
  apply BitVec.eq_of_toNat_eq
  have hw' : w < 2 ^ 32 := by omega
  have hh' : h < 2 ^ 32 := by omega
  have hsum : h * 2 ^ 16 + w < 2 ^ 32 := by omega
  have hshift : h <<< 16 < 2 ^ 32 := (Nat.shiftLeft_eq h 16).trans_lt (Nat.lt_of_le_of_lt (Nat.le_add_right _ w) hsum)
  have hor : h <<< 16 ||| w = h * 2 ^ 16 + w := by rw [← Nat.shiftLeft_add_eq_or_of_lt hw, Nat.shiftLeft_eq]
  rw [packSize, BitVec.toNat_or, BitVec.toNat_shiftLeft, BitVec.toNat_ofNat, BitVec.toNat_ofNat, BitVec.toNat_ofNat,
    Nat.mod_eq_of_lt hw', Nat.mod_eq_of_lt hh', Nat.mod_eq_of_lt hshift, Nat.mod_eq_of_lt hsum, hor]

theorem fbSizeVal_eq_ofNat {p : Params} (hv : p.Valid) : fbSizeVal p = BitVec.ofNat 32 (p.fbH * 2 ^ 16 + p.fbW) := by
  obtain ⟨⟨-, hw⟩, ⟨-, hh⟩, -⟩ := hv
  exact packSize_eq_ofNat (by omega) (by omega)

theorem tileSizeVal_eq : tileSizeVal = 0x00080008#32 := by decide

theorem legalIf_eq_legal_iff {b : Bool} {i j : Instr} : legalIf b i = .legal j ↔ b = true ∧ i = j := by
  cases b <;> simp [legalIf]

/-- A word that decodes to a TPIX names an existing tile buffer (R43 step 4): every other operation code gives another command. -/
theorem tile_lt_of_decode_tpix {p : Params} {w : Command} {t : BitVec 4} {x y : Half} {v : Byte}
    (h : decode p w = .legal (.tpix t x y v)) : t.toNat < p.ntiles := by
  unfold decode at h
  split_ifs at h <;> simp only [legalIf_eq_legal_iff, reduceCtorEq, and_false, Instr.tpix.injEq,
    Bool.and_eq_true, decide_eq_true_eq] at h
  obtain ⟨⟨-, hlt⟩, rfl, -⟩ := h
  exact hlt

/-- `respond`, after anything that has touched memory and the held word only. -/
theorem answered_respond {s u : State} (e : Bool) (v : Word32) (hcfg : u.cfg = s.cfg) (hchannel : u.channel = s.channel)
    (hboot : u.boot = s.boot) (hresp : u.responses = s.responses) : Answered s (u.respond e v) ⟨e, v⟩ :=
  ⟨hcfg, hchannel, hboot, rfl, rfl, by rw [State.respond_responses, hresp]⟩

/-- The response of each command, whatever its bounds test says (R61 to R65, R71, R72, R75). -/
theorem exec_answered {i : Instr} {w : Command} {s t : State} (hv : s.cfg.Valid) (hd : decode s.cfg w = .legal i)
    (h : exec i s = .next t) : Answered s t (responseTo s.cfg w) := by
  cases i with
  | fbpix x y c =>
    have hr : responseTo s.cfg w = ⟨false, 0#32⟩ := by simp [responseTo, hd]
    rw [hr]
    by_cases hb : fbInBounds s.cfg x y
    · cases (exec_fbpix_of_inBounds hb c).symm.trans h
      exact answered_respond _ _ rfl rfl rfl rfl
    · cases (exec_fbpix_of_not_inBounds hb c).symm.trans h
      exact answered_respond _ _ rfl rfl rfl rfl
  | fbclr c =>
    have hr : responseTo s.cfg w = ⟨false, 0#32⟩ := by simp [responseTo, hd]
    rw [hr]
    cases (exec_fbclr c s).symm.trans h
    exact answered_respond _ _ rfl rfl rfl rfl
  | fbsize =>
    have hr : responseTo s.cfg w = ⟨false, fbSizeVal s.cfg⟩ := by simp [responseTo, hd, fbSizeVal_eq_ofNat hv]
    rw [hr]
    cases (exec_fbsize s).symm.trans h
    exact answered_respond _ _ rfl rfl rfl rfl
  | tpix n x y v =>
    have hr : responseTo s.cfg w = ⟨false, 0#32⟩ := by simp [responseTo, hd]
    have hn := tile_lt_of_decode_tpix hd
    rw [hr]
    by_cases hb : tileInBounds x y
    · cases (exec_tpix_of_inBounds hn hb v).symm.trans h
      exact answered_respond _ _ rfl rfl rfl rfl
    · cases (exec_tpix_of_not_inBounds hn hb v).symm.trans h
      exact answered_respond _ _ rfl rfl rfl rfl
  | tsize =>
    have hr : responseTo s.cfg w = ⟨false, tileSizeVal⟩ := by simp [responseTo, hd, tileSizeVal_eq]
    rw [hr]
    cases (exec_tsize s).symm.trans h
    exact answered_respond _ _ rfl rfl rfl rfl

theorem runCommand_of_legal {s : State} {w : Command} {i : Instr} (h : decode s.cfg w = .legal i) : runCommand w s = exec i s := by
  rw [runCommand, h]

theorem runCommand_of_illegal {s : State} {w : Command} (h : decode s.cfg w = .illegal) :
    runCommand w s = .next s.raiseIllegalCommand := by
  rw [runCommand, h]

/-- A completed word, legal or Illegal, has got the response R15 and R49 give it. -/
theorem runCommand_answered_responseTo {w : Command} {s t : State} (hv : s.cfg.Valid) (h : runCommand w s = .next t) :
    Answered s t (responseTo s.cfg w) := by
  cases hd : decode s.cfg w with
  | legal i => exact exec_answered hv hd ((runCommand_of_legal hd).symm.trans h)
  | illegal =>
    have hr : responseTo s.cfg w = ⟨true, 0#32⟩ := by simp [responseTo, hd]
    rw [hr]
    cases (runCommand_of_illegal hd).symm.trans h
    exact answered_respond _ _ rfl rfl rfl rfl

/-- `err` is bit 32 of the response word, `val` bits 31:0 (R15, R49). -/
theorem response_word_fields (r : Response) : r.word.getLsbD 32 = r.err ∧ r.word.extractLsb' 0 32 = r.val := by
  constructor
  · exact BitVec.getLsbD_append.trans (by simp)
  · exact BitVec.extractLsb'_append_eq_right

/-! ## One step and a run of steps, by the commands in flight -/

theorem step_of_accept {s s' : State} {w : Command} (hv : s.cfg.Valid) (h : s.accept = some (w, s')) : step s = runCommand w s' := by
  rw [step, if_pos hv, acceptAndRun, h]

theorem inFlight_of_answered {s t : State} {r : Response} (h : Answered s t r) : inFlight t = s.channel := by
  simp [inFlight, h.latch, h.channel]

/-- A step answers the oldest command in flight and leaves those behind it waiting (R14, R15, R48). -/
theorem step_answers_oldest {s : State} {w : Command} {ws : List Command} (hv : s.cfg.Valid) (h : inFlight s = w :: ws) :
    ∃ t, step s = .next t ∧ Answered { s with channel := ws } t (responseTo s.cfg w) := by
  cases ha : s.accept with
  | none => simp [(accept_eq_none_iff s).1 ha] at h
  | some c =>
    obtain ⟨w', s'⟩ := c
    obtain ⟨hw, hch⟩ : w' = w ∧ s'.channel = ws := by simpa [State.accept_inFlight ha] using h
    obtain ⟨hcfg, -, -, hresp, hboot, -⟩ := State.accept_frame ha
    obtain ⟨t, ht⟩ := runCommand_completes w' s'
    have ans := runCommand_answered_responseTo (hcfg ▸ hv) ht
    rw [hw, hcfg] at ans
    exact ⟨t, (step_of_accept hv ha).trans ht,
      ans.cfg.trans hcfg, ans.channel.trans hch, ans.boot.trans hboot, ans.latch, ans.held, ans.responses.trans (hresp ▸ rfl)⟩

/-- A run whose first step answers goes on from the state it answers, on any machine of the host's interface. -/
theorem run_succ_of_step {M : Host.Core} {s t : M.State} (h : M.step s = .next t) (k : Nat) : M.run (k + 1) s = M.run k t := by
  rw [Host.Core.run, h]

/-- As many steps as there are commands in flight answer all of them, in order (R14, R30, R122). -/
theorem run_answers_inFlight (ws : List Command) {s : State} (hv : s.cfg.Valid) (h : inFlight s = ws) :
    ∃ t : State, Sys2Proof.core.run ws.length s = .next t ∧
      t.responses = s.responses ++ ws.map (responseTo s.cfg) ∧ inFlight t = [] ∧ t.cfg = s.cfg := by
  induction ws generalizing s with
  | nil => exact ⟨s, rfl, by simp, h, rfl⟩
  | cons w ws ih =>
    obtain ⟨u, hu, ans⟩ := step_answers_oldest hv h
    have hcfg : u.cfg = s.cfg := ans.cfg
    obtain ⟨t, hrun, hresp, hidle, htcfg⟩ := ih (hcfg ▸ hv) (inFlight_of_answered ans)
    refine ⟨t, (run_succ_of_step (M := Sys2Proof.core) hu ws.length).trans hrun, ?_, hidle, htcfg.trans hcfg⟩
    rw [hresp, ans.responses, hcfg]
    simp

/-! ## The events around the PTU (R95 to R101), one by one -/

namespace Platform

theorem next_enableInterrupt_iff {q r : Platform} : q.next .enableInterrupt = some r ↔
    (q.phase = .setup ∧ q.halted = false ∧ inFlight q.ptu = []) ∧ r = { q with phase := .idle } := by
  simp [Platform.next, @eq_comm _ r]

theorem next_vblank_iff {q r : Platform} : q.next .vblank = some r ↔ r = { q with pending := true } := by
  simp [Platform.next, @eq_comm _ r]

theorem next_acknowledge_iff {q r : Platform} : q.next .acknowledge = some r ↔
    (q.phase ≠ .setup ∧ q.pending = true) ∧ r = { q with pending := false, phase := if q.halted then q.phase else .active } := by
  simp [Platform.next, @eq_comm _ r]

theorem next_issue_iff {q r : Platform} {w : Command} : q.next (.issue w) = some r ↔
    (q.phase ≠ .idle ∧ q.halted = false) ∧ r = { q with ptu := hostIssue w q.ptu } := by
  simp [Platform.next, @eq_comm _ r]

theorem next_write_iff {q r : Platform} {w : AccessWidth} {a : Nat} {v : Word32} : q.next (.write w a v) = some r ↔
    (q.phase ≠ .idle ∧ q.halted = false) ∧ ∃ t, hostWrite w a v q.ptu = .next t ∧ r = { q with ptu := t } := by
  cases h : hostWrite w a v q.ptu <;> simp [Platform.next, h, @eq_comm _ r]

theorem next_take_iff {q r : Platform} : q.next .take = some r ↔
    (q.phase ≠ .idle ∧ q.halted = false) ∧ ∃ p t, takeResponse q.ptu = some (p, t) ∧ r = { q with ptu := t } := by
  simp [Platform.next, @eq_comm _ r]

theorem next_frameDone_iff {q r : Platform} : q.next .frameDone = some r ↔
    (q.phase = .active ∧ q.halted = false ∧ inFlight q.ptu = []) ∧ r = { q with phase := .idle } := by
  simp [Platform.next, @eq_comm _ r]

theorem next_fatal_iff {q r : Platform} : q.next .fatal = some r ↔ inFlight q.ptu = [] ∧ r = { q with halted := true } := by
  simp [Platform.next, @eq_comm _ r]

theorem next_powerCycle_iff {q r : Platform} : q.next .powerCycle = some r ↔ r = Platform.start (powerCycle q.ptu) := by
  simp [Platform.next, @eq_comm _ r]

theorem next_ptuStep_iff {q r : Platform} : q.next .ptuStep = some r ↔ ∃ t, step q.ptu = .next t ∧ r = { q with ptu := t } := by
  cases h : step q.ptu <;> simp [Platform.next, h, @eq_comm _ r]

end Platform

/-! ## The statements -/

/-- Settles O10: the invariant does not speak of the waiting words, taking leaves fewer responses, a write that completes lies inside the
address space, and a power cycle leads to a reset state. -/
theorem hostActionsKeepTheInvariant : Obligations.HostActionsKeepTheInvariant := fun _ hs =>
  ⟨hostIssue_keeps_inv hs, fun _ _ => takeResponse_keeps_inv hs, fun _ _ _ _ => hostWrite_keeps_inv hs, powerCycle_keeps_inv hs⟩

/-- Settles O39: the step answers the oldest command in flight with `responseTo` of it. -/
theorem eachCommandGetsExactlyOneResponse : Obligations.EachCommandGetsExactlyOneResponse := by
  refine ⟨fun s w ws hv h => ?_, fun s r rs h => takeResponse_eq_some_iff.2 ⟨rs, h, rfl⟩, response_word_fields⟩
  obtain ⟨t, ht, ans⟩ := step_answers_oldest hv h
  exact ⟨t, ht, ans.responses, ans.latch, ans.held, inFlight_of_answered ans⟩

/-- Settles O40: by induction on the commands in flight; an issued word is one more of them, the last. -/
theorem responseStreamOfAnyProgram : Obligations.ResponseStreamOfAnyProgram := by
  refine ⟨fun s hv => run_answers_inFlight _ hv rfl, fun s w => ⟨hostIssue_inFlight s w, rfl⟩, fun s w hv => ?_⟩
  obtain ⟨t, hrun, hresp, hidle, -⟩ := run_answers_inFlight (s := hostIssue w s) (inFlight s ++ [w]) hv (hostIssue_inFlight s w)
  refine ⟨t, by simpa using hrun, ?_, hidle⟩
  rw [hresp]
  simp

/-- Settles O52: event by event; in Idle the acknowledgement and the power cycle are the only events that lead to another phase. -/
theorem interruptContextNeverDraws : Obligations.InterruptContextNeverDraws := by
  intro e q r h
  cases e with
  | enableInterrupt =>
    obtain ⟨-, rfl⟩ := Platform.next_enableInterrupt_iff.1 h
    exact ⟨.inl rfl, fun _ hne => absurd rfl hne⟩
  | vblank =>
    obtain rfl := Platform.next_vblank_iff.1 h
    exact ⟨.inl rfl, fun hi hne => absurd hi hne⟩
  | acknowledge =>
    obtain ⟨⟨-, hp⟩, rfl⟩ := Platform.next_acknowledge_iff.1 h
    exact ⟨.inl rfl, fun _ _ => .inl ⟨rfl, hp, rfl⟩⟩
  | issue w =>
    obtain ⟨⟨hphase, hhalt⟩, rfl⟩ := Platform.next_issue_iff.1 h
    exact ⟨.inr (.inl ⟨w, rfl, hphase, hhalt, rfl⟩), fun hi => absurd hi hphase⟩
  | write w a v =>
    obtain ⟨⟨hphase, hhalt⟩, t, ht, rfl⟩ := Platform.next_write_iff.1 h
    exact ⟨.inr (.inr (.inl ⟨w, a, v, rfl, hphase, hhalt, ht⟩)), fun hi => absurd hi hphase⟩
  | take =>
    obtain ⟨⟨hphase, hhalt⟩, p, t, ht, rfl⟩ := Platform.next_take_iff.1 h
    exact ⟨.inr (.inr (.inr (.inl ⟨p, rfl, hphase, hhalt, ht⟩))), fun hi => absurd hi hphase⟩
  | frameDone =>
    obtain ⟨-, rfl⟩ := Platform.next_frameDone_iff.1 h
    exact ⟨.inl rfl, fun _ hne => absurd rfl hne⟩
  | fatal =>
    obtain ⟨-, rfl⟩ := Platform.next_fatal_iff.1 h
    exact ⟨.inl rfl, fun hi hne => absurd hi hne⟩
  | powerCycle =>
    obtain rfl := Platform.next_powerCycle_iff.1 h
    exact ⟨.inr (.inr (.inr (.inr (.inr ⟨rfl, rfl⟩)))), fun _ _ => .inr rfl⟩
  | ptuStep =>
    obtain ⟨t, ht, rfl⟩ := Platform.next_ptuStep_iff.1 h
    exact ⟨.inr (.inr (.inr (.inr (.inl ⟨rfl, ht⟩)))), fun hi hne => absurd hi hne⟩

/-- Settles O1: acceptance of the latched or the oldest waiting word, then `exec` of what it decodes to. -/
theorem stepRunsTheDecodedCommand : Obligations.StepRunsTheDecodedCommand := fun _ _ _ hv hd =>
  ⟨fun hl => (step_of_accept hv (State.accept_latched hl)).trans (runCommand_of_legal hd),
    fun _ hl hc => (step_of_accept hv (State.accept_waiting hl hc)).trans (runCommand_of_legal hd)⟩

/-- Settles O5: the first word presented after reset is accepted as a waiting word is in any other state. -/
theorem resetIsEmptyAndTheFirstCommandRuns : Obligations.ResetIsEmptyAndTheFirstCommandRuns := fun p boot =>
  ⟨rfl, rfl, rfl, fun w i hv hd =>
    (stepRunsTheDecodedCommand ((State.resetWith p boot).presentWord w) w i hv hd).2 [] rfl rfl⟩

/-- Settles O6: the memory of a reset state lists no byte, so each byte's value is the free one. -/
theorem resetGivesNoByteANamedValue : Obligations.ResetGivesNoByteANamedValue := fun _ _ a =>
  ⟨Memory.get_nil a, rfl⟩

end Sys2Proof.Machine
end

section
/-! SUPPORT. The statements of 20_memory.md. First the facts they share: the byte a command stores at an address, the transactions R25 admits
for it, memory read little-endian, and a host access by the commands in flight; then the statements. -/

namespace Sys2Proof.Machine

/-! ## The byte a command stores -/

/-- The byte command `i` stores at address `b` of a PTU with parameters `p`, none where it stores no byte (R61, R62, R63, R71, R72, R73).
`get_exec` ties it to `exec`. -/
def storedByte (p : Params) : Instr → Nat → Option Byte
  | .fbpix x y c, b =>
    if fbInBounds p x y ∧ fbPixelAddr p x y ≤ b ∧ b < fbPixelAddr p x y + 2 then
      some (c.extractLsb' (8 * (b - fbPixelAddr p x y)) 8)
    else none
  | .fbclr c, b =>
    if p.inFramebuffer b then some (if (b - p.fbBase) % 2 = 0 then c.extractLsb' 0 8 else c.extractLsb' 8 8) else none
  | .fbsize, _ => none
  | .tpix t x y v, b =>
    if t.toNat < p.ntiles ∧ tileInBounds x y ∧ b = p.tileBase + 64 * t.toNat + tilePixelNumber x y then some v else none
  | .tsize, _ => none

theorem storedByte_fbpix_eq_none_iff {p : Params} {x y c : Half} {b : Nat} :
    storedByte p (.fbpix x y c) b = none ↔ ¬ (fbInBounds p x y ∧ fbPixelAddr p x y ≤ b ∧ b < fbPixelAddr p x y + 2) := by
  rw [storedByte, ite_eq_right_iff]
  simp only [reduceCtorEq, imp_false]

theorem storedByte_fbclr_eq_none_iff {p : Params} {c : Half} {b : Nat} :
    storedByte p (.fbclr c) b = none ↔ ¬ p.inFramebuffer b := by
  rw [storedByte, ite_eq_right_iff]
  simp only [reduceCtorEq, imp_false]

theorem storedByte_tpix_eq_none_iff {p : Params} {t : BitVec 4} {x y : Half} {v : Byte} {b : Nat} :
    storedByte p (.tpix t x y v) b = none ↔
      ¬ (t.toNat < p.ntiles ∧ tileInBounds x y ∧ b = p.tileBase + 64 * t.toNat + tilePixelNumber x y) := by
  rw [storedByte, ite_eq_right_iff]
  simp only [reduceCtorEq, imp_false]

theorem inFramebuffer_iff {p : Params} {b : Nat} : p.inFramebuffer b ↔ p.fbBase ≤ b ∧ b < p.fbBase + 2 * p.pixels := by
  rw [Params.inFramebuffer, fbBytes_eq, Params.pixels]

theorem ite_some_or {P : Prop} [Decidable P] {α : Type} (x : α) (o : Option α) :
    (if P then some x else none).or o = if P then some x else o :=
  apply_ite_left Option.or P (some x) none o

/-- Memory after a command: each byte is the one the command stores there, or as it was. -/
theorem get_exec {i : Instr} {s t : State} (h : exec i s = .next t) (b : Nat) :
    t.mem.get b = (storedByte s.cfg i b).or (s.mem.get b) := by
  cases i with
  | fbpix x y c =>
    rw [storedByte, ite_some_or]
    by_cases hb : fbInBounds s.cfg x y
    · cases (exec_fbpix_of_inBounds hb c).symm.trans h
      exact (get_writeHalf s _ c b).trans (if_congr (and_iff_right hb).symm rfl rfl)
    · cases (exec_fbpix_of_not_inBounds hb c).symm.trans h
      simp [hb]
  | fbclr c =>
    cases (exec_fbclr c s).symm.trans h
    simp only [storedByte, ite_some_or, inFramebuffer_iff]
    exact Memory.get_fill s.mem _ _ c b
  | fbsize =>
    cases (exec_fbsize s).symm.trans h
    rfl
  | tpix n x y v =>
    rw [storedByte, ite_some_or]
    by_cases hn : n.toNat < s.cfg.ntiles
    · by_cases hb : tileInBounds x y
      · cases (exec_tpix_of_inBounds hn hb v).symm.trans h
        exact (get_readHold_writeHeld s n x y v b).trans (if_congr ((and_iff_right hn).trans (and_iff_right hb)).symm rfl rfl)
      · cases (exec_tpix_of_not_inBounds hn hb v).symm.trans h
        simp [hb]
    · cases (exec_tpix_of_no_buffer hn x y v).symm.trans h
      simp [hn]
  | tsize =>
    cases (exec_tsize s).symm.trans h
    rfl

/-! ## Where a command stores (R21) -/

theorem fbAddr_mem_region {p : Params} {k : Nat} (h : k < p.pixels) :
    p.fbBase ≤ fbAddr p k ∧ fbAddr p k + 2 ≤ p.fbBase + p.fbBytes := by
  rw [fbBytes_eq]
  unfold Params.pixels at h
  unfold fbAddr
  omega

theorem storedByte_fbpix_outside {p : Params} {b : Nat} (x y c : Half) (h : ¬ p.inFramebuffer b) :
    storedByte p (.fbpix x y c) b = none := by
  refine storedByte_fbpix_eq_none_iff.2 fun ⟨hb, hlo, hhi⟩ => h ?_
  obtain ⟨hbase, hend⟩ := fbAddr_mem_region (fbPixelNumber_lt hb)
  exact ⟨hbase.trans hlo, hhi.trans_le hend⟩

theorem storedByte_tpix_outside {p : Params} {b : Nat} (t : BitVec 4) (x y : Half) (v : Byte) (h : ¬ p.inTiles b) :
    storedByte p (.tpix t x y v) b = none := by
  refine storedByte_tpix_eq_none_iff.2 fun ⟨ht, hb, he⟩ => h ?_
  have := tilePixelNumber_lt hb
  unfold Params.inTiles Params.tileBytes
  omega

/-- No command stores outside the two regions. -/
theorem storedByte_outside_regions {p : Params} {b : Nat} (i : Instr) (h : ¬ (p.inFramebuffer b ∨ p.inTiles b)) :
    storedByte p i b = none := by
  obtain ⟨hfb, htile⟩ := not_or.1 h
  cases i with
  | fbpix x y c => exact storedByte_fbpix_outside x y c hfb
  | fbclr c => exact storedByte_fbclr_eq_none_iff.2 hfb
  | fbsize => rfl
  | tpix t x y v => exact storedByte_tpix_outside t x y v htile
  | tsize => rfl

/-- D14: the two regions of a PTU are disjoint. -/
theorem not_inFramebuffer_of_inTiles {p : Params} {b : Nat} (hv : p.Valid) (h : p.inTiles b) : ¬ p.inFramebuffer b := by
  obtain ⟨-, -, -, -, -, -, -, hdisj⟩ := hv
  omega

/-! ## The frame of a command on memory -/

theorem sameOutside_of_get {s t : State} {P : Nat → Prop} (hboot : t.boot = s.boot)
    (h : ∀ a, ¬ P a → t.mem.get a = s.mem.get a) : SameOutside s t P :=
  fun a ha => ⟨h a ha, State.byteAt_of_get a (h a ha) hboot⟩

/-- A command completes, and keeps the parameters and the power-up count. -/
theorem exec_completes (i : Instr) (s : State) : ∃ t, exec i s = .next t ∧ t.cfg = s.cfg ∧ t.boot = s.boot := by
  obtain ⟨m, r, -, h⟩ := exec_answers i s
  exact ⟨_, h, rfl, rfl⟩

/-- A command that stores nothing outside `P` changes nothing outside `P`. -/
theorem exec_sameOutside {s : State} {i : Instr} {P : Nat → Prop} (h : ∀ b, ¬ P b → storedByte s.cfg i b = none) :
    ∃ t, exec i s = .next t ∧ SameOutside s t P := by
  obtain ⟨t, ht, -, hboot⟩ := exec_completes i s
  refine ⟨t, ht, sameOutside_of_get hboot fun b hb => ?_⟩
  rw [get_exec ht, h b hb, Option.none_or]

/-- A command word changes no byte outside the two regions, an Illegal one none at all (R90). -/
theorem runCommand_get_outside_regions {w : Command} {s t : State} (h : runCommand w s = .next t) {b : Nat}
    (hb : ¬ (s.cfg.inFramebuffer b ∨ s.cfg.inTiles b)) : t.mem.get b = s.mem.get b := by
  cases hd : decode s.cfg w with
  | legal i => rw [get_exec ((runCommand_of_legal hd).symm.trans h), storedByte_outside_regions i hb, Option.none_or]
  | illegal =>
    cases (runCommand_of_illegal hd).symm.trans h
    rfl

/-- Of two commands run one after the other only the later shows in memory, when it stores every byte the earlier one does. -/
theorem later_exec_wins {s : State} (hs : s.Inv) {i j : Instr}
    (h : ∀ b, storedByte s.cfg j b = none → storedByte s.cfg i b = none) :
    ∃ a b u, exec i s = .next a ∧ exec j a = .next b ∧ exec j s = .next u ∧ b.mem = u.mem := by
  obtain ⟨hv, hm, -, -⟩ := hs
  obtain ⟨a, ha, hacfg, -⟩ := exec_completes i s
  obtain ⟨b, hb, -, -⟩ := exec_completes j a
  obtain ⟨u, hu, -, -⟩ := exec_completes j s
  refine ⟨a, b, u, ha, hb, hu, Memory.ext (exec_keeps_wf (hacfg ▸ hv) (exec_keeps_wf hv hm ha) hb) (exec_keeps_wf hv hm hu) fun c => ?_⟩
  rw [get_exec hb, get_exec hu, hacfg, get_exec ha]
  cases hj : storedByte s.cfg j c with
  | none => rw [h c hj, Option.none_or]
  | some v => rfl

/-! ## The transactions of a command (R24, R25) -/

theorem fbAddr_mod_two {p : Params} (hv : p.Valid) (k : Nat) : fbAddr p k % 2 = 0 := by
  obtain ⟨-, -, hbase, -⟩ := hv
  unfold fbAddr
  omega

theorem fbAddr_double_mod_four {p : Params} (hv : p.Valid) (j : Nat) : fbAddr p (2 * j) % 4 = 0 := by
  obtain ⟨-, -, hbase, -⟩ := hv
  unfold fbAddr
  omega

theorem tileWordAddr_mod_four {p : Params} (hv : p.Valid) (t : BitVec 4) (x y : Half) : tileWordAddr p t x y % 4 = 0 := by
  obtain ⟨-, -, -, hbase, -⟩ := hv
  unfold tileWordAddr tileBufAddr
  omega

theorem tileWordAddr_mem_region {p : Params} {t : BitVec 4} {x y : Half} (ht : t.toNat < p.ntiles) (h : tileInBounds x y) :
    p.tileBase ≤ tileWordAddr p t x y ∧ tileWordAddr p t x y + 4 ≤ p.tileBase + p.tileBytes := by
  have := tileWordNumber_le h
  unfold tileWordAddr tileBufAddr Params.tileBytes
  omega

/-- A store of an FBCLR lies inside the framebuffer region. -/
theorem FillStore.mem_region {p : Params} {c : Half} {x : Transaction} (h : FillStore p c x) :
    p.fbBase ≤ x.addr ∧ x.addr + x.width ≤ p.fbBase + p.fbBytes := by
  cases x with
  | readWord a => exact h.elim
  | writeHalf a v =>
    obtain ⟨-, k, hk, rfl⟩ := h
    exact fbAddr_mem_region hk
  | writeWord a v =>
    obtain ⟨-, j, hj, rfl⟩ := h
    obtain ⟨hbase, -⟩ := fbAddr_mem_region (Nat.lt_of_succ_lt hj)
    obtain ⟨-, hend⟩ := fbAddr_mem_region hj
    exact ⟨hbase, hend⟩

theorem FillStore.end_le {p : Params} {c : Half} {x : Transaction} (hv : p.Valid) (h : FillStore p c x) :
    x.addr + x.width ≤ 2 ^ 32 := by
  obtain ⟨-, -, -, -, -, hspace, -, -⟩ := hv
  exact h.mem_region.2.trans hspace

theorem FillStore.aligned {p : Params} {c : Half} {x : Transaction} (hv : p.Valid) (h : FillStore p c x) : x.Aligned := by
  cases x with
  | readWord a => exact h.elim
  | writeHalf a v =>
    obtain ⟨-, k, -, rfl⟩ := h
    exact fbAddr_mod_two hv k
  | writeWord a v =>
    obtain ⟨-, j, -, rfl⟩ := h
    exact fbAddr_double_mod_four hv j

/-- R24 and R21 for the commands whose transactions R25 fixes. -/
theorem pixelTransactions_aligned_inRegions {s : State} (hv : s.cfg.Valid) (i : Instr) :
    ∀ x ∈ pixelTransactions s i, x.Aligned ∧ x.InRegions s.cfg := by
  intro x hx
  cases i with
  | fbpix px py c =>
    simp only [pixelTransactions, List.mem_ite_nil_right, List.mem_singleton] at hx
    obtain ⟨hb, rfl⟩ := hx
    exact ⟨fbAddr_mod_two hv _, .inl (fbAddr_mem_region (fbPixelNumber_lt hb))⟩
  | fbclr c => cases hx
  | fbsize => cases hx
  | tpix t px py v =>
    simp only [pixelTransactions, List.mem_ite_nil_right, List.mem_cons, List.not_mem_nil, or_false] at hx
    obtain ⟨⟨ht, hb⟩, rfl | rfl⟩ := hx
    · exact ⟨tileWordAddr_mod_four hv t px py, .inr (tileWordAddr_mem_region ht hb)⟩
    · exact ⟨tileWordAddr_mod_four hv t px py, .inr (tileWordAddr_mem_region ht hb)⟩
  | tsize => cases hx

/-! ## An FBCLR's stores, in any order (R63, D18) -/

namespace Transaction

/-- Address `b` is one of the bytes accessed. -/
abbrev Touches (x : Transaction) (b : Nat) : Prop := x.addr ≤ b ∧ b < x.addr + x.width

/-- A transaction that ends inside the 32-bit space keeps memory in canonical form. -/
theorem wf_apply {m : Memory} (hm : m.wf) (x : Transaction) (h : x.addr + x.width ≤ 2 ^ 32) : (x.apply m).wf := by
  cases x with
  | readWord a => exact hm
  | writeHalf a v => exact Memory.wf_write v 2 hm h
  | writeWord a v => exact Memory.wf_writeLanes v hm h

end Transaction

theorem wf_applyAll {m : Memory} (hm : m.wf) {ts : List Transaction} (h : ∀ x ∈ ts, x.addr + x.width ≤ 2 ^ 32) :
    (applyAll m ts).wf := by
  induction ts generalizing m with
  | nil => exact hm
  | cons x xs ih =>
    obtain ⟨hx, hxs⟩ := List.forall_mem_cons.1 h
    exact ih (x.wf_apply hm hx) hxs

/-- The fill stores the low byte of the colour at a pixel's own address, the high byte behind it. -/
theorem storedByte_fbclr_low {p : Params} (c : Half) {k : Nat} (h : k < p.pixels) :
    storedByte p (.fbclr c) (fbAddr p k) = some (c.extractLsb' 0 8) := by
  unfold fbAddr
  rw [storedByte, if_pos (inFramebuffer_iff.2 (by omega)), if_pos (by omega)]

theorem storedByte_fbclr_high {p : Params} (c : Half) {k : Nat} (h : k < p.pixels) :
    storedByte p (.fbclr c) (fbAddr p k + 1) = some (c.extractLsb' 8 8) := by
  unfold fbAddr
  rw [storedByte, if_pos (inFramebuffer_iff.2 (by omega)), if_neg (by omega)]

/-- A store of an FBCLR puts the fill's own bytes where it touches memory. -/
theorem FillStore.get_apply {p : Params} {c : Half} {x : Transaction} (h : FillStore p c x) (m : Memory) (b : Nat) :
    (x.apply m).get b = if x.Touches b then storedByte p (.fbclr c) b else m.get b := by
  by_cases hb : x.Touches b
  · rw [if_pos hb]
    cases x with
    | readWord a => exact h.elim
    | writeHalf a v =>
      obtain ⟨rfl, k, hk, rfl⟩ := h
      obtain rfl | rfl : b = fbAddr p k ∨ b = fbAddr p k + 1 := by
        simp only [Transaction.Touches, Transaction.addr, Transaction.width] at hb
        omega
      · rw [storedByte_fbclr_low v hk, Transaction.apply, Memory.get_write]
        simp
      · rw [storedByte_fbclr_high v hk, Transaction.apply, Memory.get_write]
        simp
    | writeWord a v =>
      obtain ⟨rfl, j, hj, rfl⟩ := h
      have hnext : fbAddr p (2 * j + 1) = fbAddr p (2 * j) + 2 := rfl
      have hlast : fbAddr p (2 * j + 1) + 1 = fbAddr p (2 * j) + 3 := rfl
      obtain rfl | rfl | rfl | rfl : b = fbAddr p (2 * j) ∨ b = fbAddr p (2 * j) + 1 ∨ b = fbAddr p (2 * j + 1) ∨
          b = fbAddr p (2 * j + 1) + 1 := by
        simp only [Transaction.Touches, Transaction.addr, Transaction.width] at hb
        omega
      · rw [storedByte_fbclr_low c (Nat.lt_of_succ_lt hj), Transaction.apply, Memory.get_writeLanes]
        simp [pairWord]
      · rw [storedByte_fbclr_high c (Nat.lt_of_succ_lt hj), Transaction.apply, Memory.get_writeLanes]
        simp [pairWord]
      · rw [storedByte_fbclr_low c hj, Transaction.apply, Memory.get_writeLanes, hnext]
        simp [pairWord]
      · rw [storedByte_fbclr_high c hj, Transaction.apply, Memory.get_writeLanes, hlast]
        simp [pairWord]
  · rw [if_neg hb]
    cases x with
    | readWord a => rfl
    | writeHalf a v => exact (Memory.get_write m a v 2 b).trans (if_neg hb)
    | writeWord a v =>
      simp only [Transaction.Touches, Transaction.addr, Transaction.width] at hb
      rw [Transaction.apply, Memory.get_writeLanes, if_neg (by omega), if_neg (by omega), if_neg (by omega), if_neg (by omega)]

/-- A sequence of stores of an FBCLR leaves the fill's own byte at every address touched once or more, whatever the order. -/
theorem get_applyAll_of_fillStores {p : Params} {c : Half} {ts : List Transaction} (h : ∀ x ∈ ts, FillStore p c x) (m : Memory) (b : Nat) :
    (applyAll m ts).get b = if ∃ x ∈ ts, x.Touches b then storedByte p (.fbclr c) b else m.get b := by
  induction ts generalizing m with
  | nil => simp [applyAll]
  | cons x xs ih =>
    obtain ⟨hx, hxs⟩ := List.forall_mem_cons.1 h
    have hstep : (applyAll m (x :: xs)).get b = (applyAll (x.apply m) xs).get b := rfl
    rw [hstep, ih hxs, hx.get_apply]
    simp only [List.exists_mem_cons_iff]
    by_cases h1 : ∃ y ∈ xs, y.Touches b
    · rw [if_pos h1, if_pos (.inr h1)]
    · simp only [h1, if_false, or_false]

/-- The stores of an FBCLR touch exactly the framebuffer region (R25). -/
theorem FillTraffic.touches_iff {p : Params} {c : Half} {ts : List Transaction} (h : FillTraffic p c ts) {b : Nat} :
    (∃ x ∈ ts, x.Touches b) ↔ p.inFramebuffer b := by
  obtain ⟨hstores, hcover⟩ := h
  constructor
  · rintro ⟨x, hx, hb⟩
    have hregion := (hstores x hx).mem_region
    omega
  · intro hb
    obtain ⟨hlo, hhi⟩ := inFramebuffer_iff.1 hb
    obtain ⟨x, hx, hpixel⟩ := hcover ((b - p.fbBase) / 2) (by omega)
    refine ⟨x, hx, ?_⟩
    have hw : 2 ≤ x.width := by cases x <;> simp [Transaction.width]
    unfold StoresPixel fbAddr at hpixel
    omega

/-- Any traffic R25 admits for an FBCLR leaves the memory of the fill. -/
theorem FillTraffic.get_applyAll {p : Params} {c : Half} {ts : List Transaction} (h : FillTraffic p c ts) (m : Memory) (b : Nat) :
    (applyAll m ts).get b = (storedByte p (.fbclr c) b).or (m.get b) := by
  rw [get_applyAll_of_fillStores h.1, storedByte, ite_some_or]
  simp only [h.touches_iff]
  split <;> rfl

/-- The fixed transactions of a command that is no FBCLR have its effect, by the definition of each operation. -/
theorem exec_mem_of_pixelTransactions {s t : State} {i : Instr} (hi : ∀ c, i ≠ .fbclr c) (h : exec i s = .next t) :
    t.mem = applyAll s.mem (pixelTransactions s i) := by
  cases i with
  | fbpix x y c =>
    by_cases hb : fbInBounds s.cfg x y
    · cases (exec_fbpix_of_inBounds hb c).symm.trans h
      rw [pixelTransactions, if_pos hb]
      rfl
    · cases (exec_fbpix_of_not_inBounds hb c).symm.trans h
      rw [pixelTransactions, if_neg hb]
      rfl
  | fbclr c => exact absurd rfl (hi c)
  | fbsize =>
    cases (exec_fbsize s).symm.trans h
    rfl
  | tpix n x y v =>
    by_cases hn : n.toNat < s.cfg.ntiles
    · by_cases hb : tileInBounds x y
      · cases (exec_tpix_of_inBounds hn hb v).symm.trans h
        rw [pixelTransactions, if_pos ⟨hn, hb⟩]
        rfl
      · cases (exec_tpix_of_not_inBounds hn hb v).symm.trans h
        rw [pixelTransactions, if_neg (fun hc => hb hc.2)]
        rfl
    · cases (exec_tpix_of_no_buffer hn x y v).symm.trans h
      rw [pixelTransactions, if_neg (fun hc => hn hc.1)]
      rfl
  | tsize =>
    cases (exec_tsize s).symm.trans h
    rfl

/-- The fill of an FBCLR is the effect of any traffic R25 admits for it. -/
theorem exec_mem_of_fillTraffic {s t : State} {c : Half} {ts : List Transaction} (hs : s.Inv) (hts : FillTraffic s.cfg c ts)
    (h : exec (.fbclr c) s = .next t) : t.mem = applyAll s.mem ts := by
  obtain ⟨hv, hm, -, -⟩ := hs
  have hwf : (applyAll s.mem ts).wf := wf_applyAll hm fun x hx => (hts.1 x hx).end_le hv
  refine Memory.ext (exec_keeps_wf hv hm h) hwf fun b => ?_
  rw [get_exec h, hts.get_applyAll]

/-! ## Memory read little-endian (R22) -/

/-- A read gives the value whose bytes it finds, as far as they are read. -/
theorem memRead_eq_mod {s : State} {a k : Nat} (v : BitVec k) {n : Nat} (h : ∀ i < n, s.byteAt (a + i) = v.extractLsb' (8 * i) 8) :
    s.memRead a n = v.toNat % 2 ^ (8 * n) := by
  induction n with
  | zero => simp [State.memRead, Nat.mod_one]
  | succ n ih =>
    rw [State.memRead, ih fun i hi => h i (Nat.lt_succ_of_lt hi), h n n.lt_succ_self, BitVec.extractLsb'_toNat,
      Nat.shiftRight_eq_div_pow, Nat.mul_succ, pow_add, Nat.mod_mul]

theorem word_lane (s : State) (a : Nat) {n : Nat} (h : n < 4) : (s.word a).extractLsb' (8 * n) 8 = s.byteAt (a + n) := by
  unfold State.word
  obtain rfl | rfl | rfl | rfl : n = 0 ∨ n = 1 ∨ n = 2 ∨ n = 3 := by omega
  · exact BitVec.extractLsb'_append_eq_right
  · exact (BitVec.extractLsb'_append_eq_of_le (by decide)).trans BitVec.extractLsb'_append_eq_right
  · rw [BitVec.extractLsb'_append_eq_of_le (by decide), BitVec.extractLsb'_append_eq_of_le (by decide)]
    exact BitVec.extractLsb'_append_eq_right
  · rw [BitVec.extractLsb'_append_eq_of_le (by decide), BitVec.extractLsb'_append_eq_of_le (by decide)]
    exact BitVec.extractLsb'_append_eq_left

theorem half_lane (s : State) (a : Nat) {n : Nat} (h : n < 2) : (s.half a).extractLsb' (8 * n) 8 = s.byteAt (a + n) := by
  unfold State.half
  obtain rfl | rfl : n = 0 ∨ n = 1 := by omega
  · exact BitVec.extractLsb'_append_eq_right
  · exact BitVec.extractLsb'_append_eq_left

theorem word_toNat (s : State) (a : Nat) : (s.word a).toNat = s.memRead a 4 := by
  rw [memRead_eq_mod (s.word a) fun i hi => (word_lane s a hi).symm]
  exact (Nat.mod_eq_of_lt (s.word a).isLt).symm

theorem half_toNat (s : State) (a : Nat) : (s.half a).toNat = s.memRead a 2 := by
  rw [memRead_eq_mod (s.half a) fun i hi => (half_lane s a hi).symm]
  exact (Nat.mod_eq_of_lt (s.half a).isLt).symm

/-- What was written is read back, as many low bytes of it as were written (R26). -/
theorem memRead_write {k : Nat} (s : State) (a n : Nat) (v : BitVec k) :
    State.memRead { s with mem := s.mem.write a v n } a n = v.toNat % 2 ^ (8 * n) := by
  refine memRead_eq_mod v fun i hi => State.byteAt_of_some ?_
  rw [Memory.get_write, if_pos (by omega), Nat.add_sub_cancel_left]

/-! ## A host access by the commands in flight (R34, R35) -/

theorem step_of_idle {s : State} (hv : s.cfg.Valid) (h : inFlight s = []) : step s = .next s := by
  rw [step, if_pos hv, acceptAndRun, (accept_eq_none_iff s).2 h]

theorem afterCommands_succ {s t : State} (h : step s = .next t) (k : Nat) : afterCommands (k + 1) s = afterCommands k t := by
  rw [afterCommands, h]

/-- With nothing in flight there is nothing to wait for. -/
theorem afterCommands_of_idle {s : State} (hv : s.cfg.Valid) (h : inFlight s = []) (k : Nat) : afterCommands k s = s := by
  induction k with
  | zero => rfl
  | succ k ih => rw [afterCommands_succ (step_of_idle hv h), ih]

theorem hostRead_of_no_fill {s : State} {w : AccessWidth} {a : Nat} {r : Region} (hr : hostAccess s.cfg w a = .next r)
    (h : ∀ c ∈ inFlight s, isFill s.cfg c = false) (seen : Nat) :
    hostRead seen w a s = .next ((afterCommands seen s).memRead a w.bytes) := by
  have hany : (inFlight s).any (isFill s.cfg) = false := List.any_eq_false.2 fun c hc => by simp [h c hc]
  simp [hostRead, hr, hany]

/-- With nothing in flight a read returns the contents, whatever commands it would have waited for. -/
theorem hostRead_of_idle {s : State} {w : AccessWidth} {a : Nat} {r : Region} (hr : hostAccess s.cfg w a = .next r)
    (h : inFlight s = []) (seen : Nat) : hostRead seen w a s = .next (s.memRead a w.bytes) := by
  obtain ⟨hv, -, -, -⟩ := hostAccess_next hr
  rw [hostRead_of_no_fill hr (by rw [h]; nofun), afterCommands_of_idle hv h]

theorem hostRead_during_fill {s : State} {w : AccessWidth} {a : Nat} (hr : hostAccess s.cfg w a = .next .framebuffer)
    (h : ∃ c ∈ inFlight s, isFill s.cfg c = true) (seen : Nat) : hostRead seen w a s = .refused .hostReadDuringFill := by
  have hany : (inFlight s).any (isFill s.cfg) = true := List.any_eq_true.2 h
  simp [hostRead, hr, hany]

theorem hostWrite_to_target {s : State} {w : AccessWidth} {a : Nat} {r : Region} (v : Word32) (hr : hostAccess s.cfg w a = .next r)
    (h : ∃ c ∈ inFlight s, targetRegion s.cfg c = some r) : hostWrite w a v s = .refused .hostWriteInFlight := by
  have hany : (inFlight s).any (fun c => targetRegion s.cfg c == some r) = true := by simpa using h
  simp [hostWrite, hr, hany]

theorem hostWrite_beside_commands {s : State} {w : AccessWidth} {a : Nat} {r : Region} (v : Word32)
    (hr : hostAccess s.cfg w a = .next r) (hf : inFlight s ≠ []) (h : ∀ c ∈ inFlight s, targetRegion s.cfg c ≠ some r) :
    hostWrite w a v s = .refused .hostWriteWhileBusy := by
  have hany : (inFlight s).any (fun c => targetRegion s.cfg c == some r) = false := by simpa using h
  simp [hostWrite, hr, hany, hf]

/-! ## The statements -/

/-- Settles O32: the law of the write, and the lanes of a word or halfword read as one number. -/
theorem memoryIsLittleEndian : Obligations.MemoryIsLittleEndian := by
  refine ⟨fun _ m a n v b => Memory.get_write m a v n b, fun s a => ⟨?_, word_toNat s a, half_toNat s a, fun n => word_lane s a⟩,
    fun _ _ => rfl⟩
  simp [State.memRead]

/-- Settles O33: every pixel's address is even and in the framebuffer region, a pair's and a tile word's a multiple of 4. -/
theorem everyTransactionIsAlignedAndInRegion : Obligations.EveryTransactionIsAlignedAndInRegion := by
  intro s i ts hv h x hx
  cases i with
  | fbclr c =>
    have hstore : FillStore s.cfg c x := h.1 x hx
    exact ⟨hstore.aligned hv, .inl hstore.mem_region⟩
  | fbpix | fbsize | tpix | tsize =>
    obtain rfl := h
    exact pixelTransactions_aligned_inRegions hv _ x hx

/-- Settles O34: an FBCLR's stores leave the fill's bytes in any order; the other commands make their transactions one after another. -/
theorem effectOnMemoryIsThatOfTheTransactions : Obligations.EffectOnMemoryIsThatOfTheTransactions := by
  intro s i ts hs h
  obtain ⟨t, ht, -, -⟩ := exec_completes i s
  refine ⟨t, ht, ?_⟩
  cases i with
  | fbclr c => exact exec_mem_of_fillTraffic hs h ht
  | fbpix | fbsize | tpix | tsize =>
    obtain rfl := h
    exact exec_mem_of_pixelTransactions nofun ht

/-- Settles O36: acceptance leaves memory alone, and no word stores outside the regions. -/
theorem noStepTouchesMemoryOutsideTheRegions : Obligations.NoStepTouchesMemoryOutsideTheRegions := by
  intro s t h
  refine sameOutside_of_get (noStepChangesTheParameters s t h).2 fun b hb => ?_
  obtain ⟨-, rfl | ⟨w, s', ha, hrun⟩⟩ := step_next h
  · rfl
  · obtain ⟨hcfg, hmem, -, -, -, -⟩ := State.accept_frame ha
    rw [runCommand_get_outside_regions hrun (hcfg ▸ hb), hmem]

/-- Settles O37: what each command stores lies in its own region, and the regions of a PTU are disjoint. -/
theorem eachTargetChangesOnlyItsRegion : Obligations.EachTargetChangesOnlyItsRegion := by
  intro s hv
  refine ⟨fun x y c => ?_, fun c => ?_, fun n x y v => ?_, ⟨_, exec_fbsize s, rfl⟩, ⟨_, exec_tsize s, rfl⟩⟩
  · obtain ⟨t, ht, hout⟩ := exec_sameOutside (s := s) fun _ => storedByte_fbpix_outside x y c
    exact ⟨t, ht, hout, fun a ha => (hout a (not_inFramebuffer_of_inTiles hv ha)).1⟩
  · obtain ⟨t, ht, hout⟩ := exec_sameOutside (s := s) (i := .fbclr c) fun _ => storedByte_fbclr_eq_none_iff.2
    exact ⟨t, ht, hout, fun a ha => (hout a (not_inFramebuffer_of_inTiles hv ha)).1⟩
  · obtain ⟨t, ht, hout⟩ := exec_sameOutside (s := s) fun _ => storedByte_tpix_outside n x y v
    exact ⟨t, ht, hout, fun a ha => (hout a fun htile => not_inFramebuffer_of_inTiles hv htile ha).1⟩

/-- Settles O38: in each of the four pairs the later command stores every byte the earlier one does. -/
theorem lastWriteWins : Obligations.LastWriteWins := by
  intro s hs
  refine ⟨fun x y c d => later_exec_wins hs fun b h => ?_, fun x y c d => later_exec_wins hs fun b h => ?_,
    fun c d => later_exec_wins hs fun b h => ?_, fun n x y v w => later_exec_wins hs fun b h => ?_⟩
  · exact storedByte_fbpix_eq_none_iff.2 (storedByte_fbpix_eq_none_iff.1 h)
  · exact storedByte_fbpix_outside x y c (storedByte_fbclr_eq_none_iff.1 h)
  · exact storedByte_fbclr_eq_none_iff.2 (storedByte_fbclr_eq_none_iff.1 h)
  · exact storedByte_tpix_eq_none_iff.2 (storedByte_tpix_eq_none_iff.1 h)

/-- Settles O42: the write completes as nothing is in flight, and a later read, however many commands it waits for, finds the state the
write left. -/
theorem hostReadsBackWhatItWrote : Obligations.HostReadsBackWhatItWrote := by
  intro s w a v r hr hf
  refine ⟨_, hostWrite_idle v hr hf, rfl, sameOutside_of_get rfl fun b hb => ?_, fun seen => ?_⟩
  · exact (Memory.get_write s.mem a v w.bytes b).trans (if_neg hb)
  · exact (hostRead_of_idle (s := { s with mem := s.mem.write a v w.bytes }) hr hf seen).trans
      (congrArg Host.Outcome.next (memRead_write s a w.bytes v))

/-- Settles O43: after its one step the PTU is idle, so a read that waits for one command or more finds the contents after it. -/
theorem hostReadSeesBeforeOrAfter : Obligations.HostReadSeesBeforeOrAfter := by
  intro s t c w a r hv hf hfill hr hstep
  have hread := hostRead_of_no_fill hr (by rw [hf]; simpa using hfill)
  obtain ⟨u, hu, ans⟩ := step_answers_oldest hv hf
  cases hu.symm.trans hstep
  have hidle : inFlight t = [] := inFlight_of_answered ans
  refine ⟨hread 0, fun k => ?_⟩
  rw [hread, afterCommands_succ hstep, afterCommands_of_idle (ans.cfg ▸ hv) hidle]

/-- Settles O44: the three cases of a host write, and the read R34 leaves without a value. -/
theorem hostAccessesInConflictAreRefused : Obligations.HostAccessesInConflictAreRefused := fun _ _ _ v _ hr =>
  ⟨hostWrite_to_target v hr, hostWrite_beside_commands v hr, hostWrite_idle v hr,
    fun seen hfb hfill => hostRead_during_fill (hfb ▸ hr) hfill seen⟩

end Sys2Proof.Machine
end

section
/-! SUPPORT. The statements of 30_encoding.md. First the facts they share: a word is its six fields (R41), decoding and encoding as one
equivalence (R43, D6), the table of R45 field by field, and the exact values of operands in range (R50); then the statements. -/

namespace Sys2Proof

/-! ## A word is its fields (R41) -/

/-- A packed word is exactly the word with these fields and a zero reserved field. -/
theorem packCommand_eq_iff {op tile : BitVec 4} {data y x : Half} {w : Command} :
    packCommand op tile data y x = w ↔
      fieldOp w = op ∧ fieldTile w = tile ∧ fieldRsv w = 0#8 ∧ fieldData w = data ∧ fieldY w = y ∧ fieldX w = x := by
  constructor
  · rintro rfl
    exact packCommand_fields op tile data y x
  · rintro ⟨rfl, rfl, hrsv, rfl, rfl, rfl⟩
    exact packCommand_of_fields w hrsv

/-- The data field of a TPIX carries its index alone. -/
theorem eq_data_of_index_iff {d : Half} {v : Byte} : d = 0#8 ++ v ↔ dataHigh d = 0#8 ∧ dataLow d = v := by
  constructor
  · rintro rfl
    exact data_of_index v
  · rintro ⟨hhigh, rfl⟩
    exact (data_of_low d hhigh).symm

theorem dataHigh_fieldData (w : Command) : dataHigh (fieldData w) = w.extractLsb' 40 8 :=
  BitVec.eq_of_getLsbD_eq fun i hi => by simp [dataHigh, fieldData, hi, ← Nat.add_assoc]; omega

/-! ## Decoding and encoding (R43, R45, D6) -/

theorem legalIf_eq_illegal_iff {b : Bool} {i : Instr} : legalIf b i = .illegal ↔ b = false := by
  cases b <;> simp [legalIf]

/-- The word of a command decodes to the command, or is Illegal when it names a missing tile buffer. -/
theorem decode_encode (p : Params) (i : Instr) : decode p (encode i) = legalIf (i.wf p) i := by
  cases i <;> simp [decode, encode, packCommand_fields, data_of_index, Instr.wf]

/-- Each branch of `decode` that answers a command has checked every field the command does not take its operands from. -/
theorem encode_of_decode {p : Params} {w : Command} {i : Instr} (h : decode p w = .legal i) : encode i = w ∧ i.wf p = true := by
  unfold decode at h
  split_ifs at h with hrsv hop hop hop hop hop <;>
  · obtain ⟨hzero, rfl⟩ := Machine.legalIf_eq_legal_iff.mp h
    simp_all [encode, packCommand_eq_iff, eq_data_of_index_iff, Instr.wf]

theorem decode_eq_legal_iff {p : Params} {w : Command} {i : Instr} : decode p w = .legal i ↔ encode i = w ∧ i.wf p = true := by
  refine ⟨encode_of_decode, ?_⟩
  rintro ⟨rfl, hwf⟩
  rw [decode_encode, hwf, legalIf, if_pos rfl]

/-! ## The match/mask table (R45) -/

@[simp] theorem fieldOp_and (v w : Command) : fieldOp (v &&& w) = fieldOp v &&& fieldOp w := BitVec.extractLsb'_and
@[simp] theorem fieldTile_and (v w : Command) : fieldTile (v &&& w) = fieldTile v &&& fieldTile w := BitVec.extractLsb'_and
@[simp] theorem fieldRsv_and (v w : Command) : fieldRsv (v &&& w) = fieldRsv v &&& fieldRsv w := BitVec.extractLsb'_and
@[simp] theorem fieldData_and (v w : Command) : fieldData (v &&& w) = fieldData v &&& fieldData w := BitVec.extractLsb'_and
@[simp] theorem fieldY_and (v w : Command) : fieldY (v &&& w) = fieldY v &&& fieldY w := BitVec.extractLsb'_and
@[simp] theorem fieldX_and (v w : Command) : fieldX (v &&& w) = fieldX v &&& fieldX w := BitVec.extractLsb'_and

/-! A field the mask covers whole. -/

theorem and_full_mask_four (v : BitVec 4) : v &&& 0xF#4 = v := BitVec.and_allOnes
theorem and_full_mask_byte (v : Byte) : v &&& 0xFF#8 = v := BitVec.and_allOnes
theorem and_full_mask_half (v : Half) : v &&& 0xFFFF#16 = v := BitVec.and_allOnes

/-- The `data` part of TPIX's mask covers `data[15:8]`. -/
theorem and_high_mask_eq_zero_iff (d : Half) : d &&& 0xFF00#16 = 0#16 ↔ dataHigh d = 0#8 := by
  have hzero : (0#16 : Half) = 0#8 ++ 0#8 := by decide
  rw [hzero, eq_data_of_index_iff]
  simp [dataHigh, dataLow, BitVec.extractLsb'_and, and_full_mask_byte]

/-- A row matches a word field by field; every pattern of the table has a zero reserved field. -/
theorem OpcodeRow.matches_iff_fields {r : OpcodeRow} (hr : r ∈ opcodeTable) (w : Command) :
    r.Matches w ↔
      fieldOp w &&& fieldOp r.mask = fieldOp r.pattern ∧ fieldTile w &&& fieldTile r.mask = fieldTile r.pattern ∧
      fieldRsv w &&& fieldRsv r.mask = 0#8 ∧ fieldData w &&& fieldData r.mask = fieldData r.pattern ∧
      fieldY w &&& fieldY r.mask = fieldY r.pattern ∧ fieldX w &&& fieldX r.mask = fieldX r.pattern := by
  have hrsv : ∀ r ∈ opcodeTable, fieldRsv r.pattern = 0#8 := by decide
  have h := packCommand_eq_iff (op := fieldOp r.pattern) (tile := fieldTile r.pattern) (data := fieldData r.pattern)
    (y := fieldY r.pattern) (x := fieldX r.pattern) (w := w &&& r.mask)
  rw [packCommand_of_fields _ (hrsv r hr), eq_comm] at h
  simpa using h

/-- The commands are those of the five constructors. -/
theorem Instr.exists_iff {P : Instr → Prop} :
    (∃ i, P i) ↔ (∃ x y c, P (.fbpix x y c)) ∨ (∃ c, P (.fbclr c)) ∨ P .fbsize ∨ (∃ t x y v, P (.tpix t x y v)) ∨ P .tsize := by
  constructor
  · rintro ⟨i, hi⟩
    cases i with
    | fbpix x y c => exact .inl ⟨x, y, c, hi⟩
    | fbclr c => exact .inr (.inl ⟨c, hi⟩)
    | fbsize => exact .inr (.inr (.inl hi))
    | tpix t x y v => exact .inr (.inr (.inr (.inl ⟨t, x, y, v, hi⟩)))
    | tsize => exact .inr (.inr (.inr (.inr hi)))
  · rintro (⟨_, _, _, hi⟩ | ⟨_, hi⟩ | hi | ⟨_, _, _, _, hi⟩ | hi) <;> exact ⟨_, hi⟩

/-- The words a row matches are the encodings of its command, whatever the operands. -/
theorem OpcodeRow.matches_iff_exists_encode {r : OpcodeRow} (hr : r ∈ opcodeTable) (w : Command) :
    r.Matches w ↔ ∃ i : Instr, encode i = w ∧ i.mnemonic = r.mnemonic := by
  rw [OpcodeRow.matches_iff_fields hr, Instr.exists_iff]
  simp only [opcodeTable, List.mem_cons, List.not_mem_nil, or_false] at hr
  obtain rfl | rfl | rfl | rfl | rfl := hr <;>
  simp [encode, Instr.mnemonic, packCommand_eq_iff, eq_data_of_index_iff, and_full_mask_four, and_full_mask_byte,
    and_full_mask_half, and_high_mask_eq_zero_iff, fieldOp, fieldTile, fieldRsv, fieldData, fieldX, fieldY]

/-- The operation code is in every mask (R45). -/
theorem OpcodeRow.fieldOp_of_matches {r : OpcodeRow} (hr : r ∈ opcodeTable) {w : Command} (h : r.Matches w) :
    fieldOp w = fieldOp r.pattern := by
  have hmask : ∀ r ∈ opcodeTable, fieldOp r.mask = 0xF#4 := by decide
  rw [← h, fieldOp_and, hmask r hr, and_full_mask_four]

theorem opcodeTable_eq_of_fieldOp_eq :
    ∀ r ∈ opcodeTable, ∀ q ∈ opcodeTable, fieldOp r.pattern = fieldOp q.pattern → r = q := by decide

/-- The check on a command's operands reads the tile field of its word, and for TPIX only (R43 step 4). -/
theorem Instr.wf_iff_tile (p : Params) (i : Instr) :
    i.wf p = true ↔ (i.mnemonic = "TPIX" → (fieldTile (encode i)).toNat < p.ntiles) := by
  cases i <;> simp [Instr.wf, Instr.mnemonic, encode, packCommand_fields]

end Sys2Proof

namespace Sys2Proof.Machine

/-! ## Operands in range keep their value (R50) -/

theorem toInt_ofInt_of_inRange {z : Int} (h : inRange (-32768) 32767 z) : (BitVec.ofInt 16 z).toInt = z :=
  BitVec.toInt_ofInt_eq_self (by decide) h.1 (Int.lt_of_le_of_lt h.2 (by decide))

theorem toNat_ofInt_of_inRange {n : Nat} {hi z : Int} (hhi : hi < 2 ^ n) (h : inRange 0 hi z) : ((BitVec.ofInt n z).toNat : Int) = z := by
  rw [BitVec.toNat_ofInt, Int.toNat_of_nonneg (Int.emod_nonneg _ (by positivity))]
  exact Int.emod_eq_of_lt h.1 (by push_cast; exact Int.lt_of_le_of_lt h.2 hhi)

/-! ## The statements -/

/-- Settles O15: decoding the fields `encode` packed, constructor by constructor. -/
theorem decodeOfEncode : Obligations.DecodeOfEncode := fun _ _ hwf => decode_eq_legal_iff.mpr ⟨rfl, hwf⟩

/-- Settles O16: a word is packed from its own fields, so a decoded word is packed from its command's. -/
theorem encodeOfDecode : Obligations.EncodeOfDecode := fun _ _ _ h => encode_of_decode h

/-- Settles O13: a row matches exactly the encodings of its command, and the check on operands is the one on the tile field. -/
theorem decodeAgreesWithMatchAndMask : Obligations.DecodeAgreesWithMatchAndMask := by
  refine ⟨fun p w r hr => ?_, fun w r hr q hq hrw hqw => ?_⟩
  · rw [OpcodeRow.matches_iff_exists_encode hr]
    constructor
    · rintro ⟨i, hdec, hname⟩
      obtain ⟨rfl, hwf⟩ := encode_of_decode hdec
      exact ⟨⟨i, rfl, hname⟩, fun htpix => (Instr.wf_iff_tile p i).mp hwf (hname.trans htpix)⟩
    · rintro ⟨⟨i, rfl, hname⟩, htile⟩
      exact ⟨i, decodeOfEncode p i ((Instr.wf_iff_tile p i).mpr fun htpix => htile (hname.symm.trans htpix)), hname⟩
  · exact opcodeTable_eq_of_fieldOp_eq r hr q hq
      ((OpcodeRow.fieldOp_of_matches hr hrw).symm.trans (OpcodeRow.fieldOp_of_matches hq hqw))

/-- Settles O14: each class is a branch of `decode` that answers Illegal, and `raiseIllegalCommand` is R90's answer. -/
theorem illegalWordsAreExactlyThese : Obligations.IllegalWordsAreExactlyThese := by
  intro p
  refine ⟨fun w => ?_, rfl, rfl, ?_⟩
  · rw [← dataHigh_fieldData, decode]
    split_ifs with hrsv hop hop hop hop hop
    · simp [hrsv]
    · simp [legalIf_eq_illegal_iff, hrsv, hop]
    · simp [legalIf_eq_illegal_iff, hrsv, hop, imp_iff_not_or, or_assoc]
    · simp [legalIf_eq_illegal_iff, hrsv, hop, imp_iff_not_or, or_assoc]
    · simp [legalIf_eq_illegal_iff, hrsv, hop, imp_iff_not_or]
    · simp [legalIf_eq_illegal_iff, hrsv, hop, imp_iff_not_or, or_assoc]
    · have hrange : (fieldOp w).toNat = 0 ∨ 6 ≤ (fieldOp w).toNat := by bv_omega
      simp [hrange]
  · rintro s w rfl hill
    exact runCommand_of_illegal hill

/-- Settles O50: the operand a field holds is the integer written, and the word decodes to those operands, or is Illegal for a missing tile
buffer. -/
theorem assemblerNeverWrapsAnOperand : Obligations.AssemblerNeverWrapsAnOperand := by
  intro p
  refine ⟨fun x y c => ?_, fun c => ?_, fun t x y v => ?_⟩
  · split_ifs with h
    · obtain ⟨hx, hy, hc⟩ := h
      exact ⟨_, _, _, _, if_pos ⟨hx, hy, hc⟩, decodeOfEncode p _ rfl, toInt_ofInt_of_inRange hx, toInt_ofInt_of_inRange hy,
        toNat_ofInt_of_inRange (by decide) hc⟩
    · exact if_neg h
  · split_ifs with hc
    · exact ⟨_, _, if_pos hc, decodeOfEncode p _ rfl, toNat_ofInt_of_inRange (by decide) hc⟩
    · exact if_neg hc
  · split
    next h =>
      obtain ⟨ht, hx, hy, hv⟩ := h
      have htile : ((BitVec.ofInt 4 t).toNat : Int) = t := toNat_ofInt_of_inRange (by decide) ht
      refine ⟨_, if_pos ⟨ht, hx, hy, hv⟩, ?_⟩
      split_ifs with hlt
      · exact ⟨_, _, _, _, decodeOfEncode p _ (decide_eq_true (by omega)), htile, toInt_ofInt_of_inRange hx,
          toInt_ofInt_of_inRange hy, toNat_ofInt_of_inRange (by decide) hv⟩
      · rw [decode_encode, legalIf_eq_illegal_iff]
        exact decide_eq_false (by omega)
    next h => exact if_neg h

/-- Settles O51: each line evaluated. -/
theorem printedLinesAssemble : Obligations.PrintedLinesAssemble := by
  unfold Obligations.PrintedLinesAssemble
  decide

end Sys2Proof.Machine
end

section
/-! SUPPORT. The statements of 40_framebuffer_target.md. First the facts they share: a halfword from the two bytes that hold it, pixels with the
same number are the same pixel (R60), what FBPIX and FBCLR leave at a pixel (R61, R63), and the fields of a packed size (R65); then the
statements. -/

namespace Sys2Proof.Machine

/-! ## A halfword as its two bytes (R22) -/

/-- Both bytes of the halfword at `a` have been given a value, and together they are `v` (R22). -/
structure State.HoldsHalf (s : State) (a : Nat) (v : Half) : Prop where
  low : s.mem.get a = some (v.extractLsb' 0 8)
  high : s.mem.get (a + 1) = some (v.extractLsb' 8 8)

/-- The value read at `a` is then `v`, with nothing left to the free value of R18. -/
theorem State.HoldsHalf.half_eq {s : State} {a : Nat} {v : Half} (h : s.HoldsHalf a v) : s.half a = v := by
  have hbytes : ∀ i < 2, s.byteAt (a + i) = v.extractLsb' (8 * i) 8 := by
    intro i hi
    obtain rfl | rfl : i = 0 ∨ i = 1 := by omega
    · exact State.byteAt_of_some h.low
    · exact State.byteAt_of_some h.high
  apply BitVec.eq_of_toNat_eq
  rw [half_toNat, memRead_eq_mod v hbytes]
  exact Nat.mod_eq_of_lt v.isLt

/-- A command that stores the two bytes of `v` at `a` leaves them there. -/
theorem holdsHalf_of_stored {i : Instr} {s t : State} {a : Nat} {v : Half} (h : exec i s = .next t)
    (hlow : storedByte s.cfg i a = some (v.extractLsb' 0 8)) (hhigh : storedByte s.cfg i (a + 1) = some (v.extractLsb' 8 8)) :
    t.HoldsHalf a v := by
  constructor
  · rw [get_exec h, hlow, Option.some_or]
  · rw [get_exec h, hhigh, Option.some_or]

/-- A command that stores neither byte of a halfword leaves it held. -/
theorem State.HoldsHalf.of_not_stored {i : Instr} {s t : State} {a : Nat} {v : Half} (hs : s.HoldsHalf a v) (h : exec i s = .next t)
    (hlow : storedByte s.cfg i a = none) (hhigh : storedByte s.cfg i (a + 1) = none) : t.HoldsHalf a v := by
  constructor
  · rw [get_exec h, hlow, Option.none_or, hs.low]
  · rw [get_exec h, hhigh, Option.none_or, hs.high]

/-! ## Pixels and their numbers (R60) -/

theorem ucoord_inj {u v : Half} (hu : 0 ≤ coord u) (hv : 0 ≤ coord v) (h : ucoord u = ucoord v) : u = v :=
  BitVec.eq_of_toInt_eq (by rw [← ucoord_cast hu, ← ucoord_cast hv, h])

/-- Row and column are quotient and remainder of the pixel number by the width. -/
theorem fbPixelNumber_div_mod {p : Params} {x y : Half} (h : fbInBounds p x y) :
    fbPixelNumber p x y / p.fbW = ucoord y ∧ fbPixelNumber p x y % p.fbW = ucoord x := by
  obtain ⟨⟨hx, hxW⟩, -⟩ := h
  have hlt : ucoord x < p.fbW := Int.ofNat_lt.1 ((ucoord_cast hx).trans_lt hxW)
  refine (Nat.div_mod_unique (Nat.zero_lt_of_lt hlt)).2 ⟨?_, hlt⟩
  rw [fbPixelNumber, Nat.mul_comm, Nat.add_comm]

theorem fbPixelNumber_inj {p : Params} {x y x' y' : Half} (h : fbInBounds p x y) (h' : fbInBounds p x' y')
    (hk : fbPixelNumber p x y = fbPixelNumber p x' y') : (x, y) = (x', y') := by
  obtain ⟨hrow, hcol⟩ := fbPixelNumber_div_mod h
  obtain ⟨hrow', hcol'⟩ := fbPixelNumber_div_mod h'
  have hx : ucoord x = ucoord x' := by rw [← hcol, ← hcol', hk]
  have hy : ucoord y = ucoord y' := by rw [← hrow, ← hrow', hk]
  rw [ucoord_inj h.1.1 h'.1.1 hx, ucoord_inj h.2.1 h'.2.1 hy]

/-- Different pixels have different numbers, and addresses step by two bytes per number (FB-P2). -/
theorem fbPixelAddr_disjoint {p : Params} {x y x' y' : Half} (h : fbInBounds p x y) (h' : fbInBounds p x' y')
    (hne : (x, y) ≠ (x', y')) :
    fbPixelAddr p x y + 2 ≤ fbPixelAddr p x' y' ∨ fbPixelAddr p x' y' + 2 ≤ fbPixelAddr p x y := by
  have hk : fbPixelNumber p x y ≠ fbPixelNumber p x' y' := fun he => hne (fbPixelNumber_inj h h' he)
  unfold fbPixelAddr fbAddr
  omega

/-- The address R61 computes in signed coordinates. -/
theorem fbPixelAddr_cast {p : Params} {x y : Half} (h : fbInBounds p x y) :
    (fbPixelAddr p x y : Int) = p.fbBase + 2 * (y.toInt * p.fbW + x.toInt) := by
  rw [← fbPixelNumber_cast h, fbPixelAddr, fbAddr]
  push_cast
  rfl

/-! ## What the drawing commands leave at a pixel (R61, R63) -/

/-- FBPIX in bounds leaves all 16 bits of the colour at its pixel. -/
theorem holdsHalf_of_fbpix {s t : State} {x y c : Half} (hb : fbInBounds s.cfg x y) (h : exec (.fbpix x y c) s = .next t) :
    t.HoldsHalf (fbPixelAddr s.cfg x y) c := by
  refine holdsHalf_of_stored h ?_ ?_
  · rw [storedByte, if_pos ⟨hb, by omega⟩, Nat.sub_self]
  · rw [storedByte, if_pos ⟨hb, by omega⟩, Nat.add_sub_cancel_left]

/-- FBPIX leaves every other pixel as it was: its two bytes lie elsewhere. -/
theorem State.HoldsHalf.of_fbpix_elsewhere {s t : State} {x y r x' y' v : Half} (hs : s.HoldsHalf (fbPixelAddr s.cfg x' y') v)
    (hb : fbInBounds s.cfg x y) (hb' : fbInBounds s.cfg x' y') (hne : (x', y') ≠ (x, y)) (h : exec (.fbpix x y r) s = .next t) :
    t.HoldsHalf (fbPixelAddr s.cfg x' y') v := by
  have hdisj := fbPixelAddr_disjoint hb' hb hne
  exact hs.of_not_stored h (storedByte_fbpix_eq_none_iff.2 (by omega)) (storedByte_fbpix_eq_none_iff.2 (by omega))

/-- FBCLR leaves the colour at every pixel number of the surface. -/
theorem holdsHalf_of_fbclr {s t : State} {c : Half} {k : Nat} (hk : k < s.cfg.pixels) (h : exec (.fbclr c) s = .next t) :
    t.HoldsHalf (fbAddr s.cfg k) c :=
  holdsHalf_of_stored h (storedByte_fbclr_low c hk) (storedByte_fbclr_high c hk)

/-! ## The size FBSIZE reports (R65) -/

theorem fbW_le_of_valid {p : Params} (hv : p.Valid) : p.fbW ≤ 32767 := by
  obtain ⟨⟨-, hw⟩, -⟩ := hv
  exact hw

theorem fbH_le_of_valid {p : Params} (hv : p.Valid) : p.fbH ≤ 32767 := by
  obtain ⟨-, ⟨-, hh⟩, -⟩ := hv
  exact hh

theorem fbSizeVal_toNat {p : Params} (hv : p.Valid) : (fbSizeVal p).toNat = p.fbH * 2 ^ 16 + p.fbW := by
  have hw := fbW_le_of_valid hv
  have hh := fbH_le_of_valid hv
  rw [fbSizeVal_eq_ofNat hv, BitVec.toNat_ofNat]
  omega

theorem fbSizeVal_width {p : Params} (hv : p.Valid) : ((fbSizeVal p).extractLsb' 0 16).toNat = p.fbW := by
  have hw := fbW_le_of_valid hv
  rw [BitVec.extractLsb'_toNat, fbSizeVal_toNat hv, Nat.shiftRight_eq_div_pow]
  omega

theorem fbSizeVal_height {p : Params} (hv : p.Valid) : ((fbSizeVal p).extractLsb' 16 16).toNat = p.fbH := by
  have hw := fbW_le_of_valid hv
  have hh := fbH_le_of_valid hv
  rw [BitVec.extractLsb'_toNat, fbSizeVal_toNat hv, Nat.shiftRight_eq_div_pow]
  omega

/-- The top bit of a 16-bit field is clear when the field is at most 32767 (R4). -/
theorem getLsbD_top_of_field_le {v : Word32} {i : Nat} (h : (v.extractLsb' i 16).toNat ≤ 32767) : v.getLsbD (i + 15) = false := by
  have hmsb : (v.extractLsb' i 16).msb = false := BitVec.msb_eq_false_iff_two_mul_lt.2 (by omega)
  simpa [BitVec.msb_eq_getLsbD_last] using hmsb

/-! ## The statements -/

/-- Settles O17: the store is the one at the computed address, and it stores no byte outside the pixel's two. -/
theorem fbpixStoresOneHalfword : Obligations.FbpixStoresOneHalfword := by
  intro s x y c
  refine ⟨decodeOfEncode s.cfg (.fbpix x y c) rfl, fun a hx0 hx1 hy0 hy1 ha => ?_⟩
  have hb : fbInBounds s.cfg x y := ⟨⟨hx0, hx1⟩, hy0, hy1⟩
  obtain rfl : a = fbPixelAddr s.cfg x y := Int.ofNat_inj.1 (ha.trans (fbPixelAddr_cast hb).symm)
  have hexec := exec_fbpix_of_inBounds hb c
  have hpixel := holdsHalf_of_fbpix hb hexec
  refine ⟨_, hexec, hpixel.half_eq, hpixel.low, hpixel.high, sameOutside_of_get rfl fun b hbyte => ?_,
    answered_respond _ _ rfl rfl rfl rfl, if_pos hb⟩
  rw [get_exec hexec, storedByte_fbpix_eq_none_iff.2 (by omega), Option.none_or]

/-- Settles O19: the fill stores the colour's two bytes at every pixel number, and no byte outside the region. -/
theorem fbclrFillsTheFramebuffer : Obligations.FbclrFillsTheFramebuffer := by
  intro s c
  refine ⟨decodeOfEncode s.cfg (.fbclr c) rfl, _, exec_fbclr c s, fun k hk => ?_, sameOutside_of_get rfl fun b hbyte => ?_,
    answered_respond _ _ rfl rfl rfl rfl⟩
  · have hpixel := holdsHalf_of_fbclr hk (exec_fbclr c s)
    exact ⟨hpixel.half_eq, hpixel.low, hpixel.high⟩
  · rw [get_exec (exec_fbclr c s), storedByte_fbclr_eq_none_iff.2 hbyte, Option.none_or]

/-- Settles O20: the word is the command's one encoding, and the two fields of its value are width and height, below 2^15 each. -/
theorem fbsizeReportsWidthAndHeight : Obligations.FbsizeReportsWidthAndHeight := by
  refine ⟨fun p w => ?_, exec_fbsize, fun p hv => ?_⟩
  · have hword : encode .fbsize = 0x3000000000000000#64 := by decide
    rw [decode_eq_legal_iff, hword, Instr.wf, eq_self, and_true, eq_comm]
  · have hwidth := fbSizeVal_width hv
    have hheight := fbSizeVal_height hv
    have hw := fbW_le_of_valid hv
    have hh := fbH_le_of_valid hv
    exact ⟨fbSizeVal_toNat hv, hwidth, hheight, getLsbD_top_of_field_le (i := 0) (by omega),
      getLsbD_top_of_field_le (i := 16) (by omega)⟩

/-- Settles O21: every pixel number is below the number of pixels, and different pixels have different numbers. -/
theorem framebufferPixelsDoNotOverlap : Obligations.FramebufferPixelsDoNotOverlap := fun _ _ _ _ _ h h' =>
  ⟨fbAddr_mem_region (fbPixelNumber_lt h), fbPixelAddr_disjoint h h'⟩

/-- Settles O22: the clear leaves its colour at both pixels, and the draw replaces it at its own and at no other. -/
theorem clearThenOnePixel : Obligations.ClearThenOnePixel := by
  intro s c r x y hb
  obtain ⟨t, ht, hcfg, -⟩ := exec_completes (.fbclr c) s
  obtain ⟨u, hu, -, -⟩ := exec_completes (.fbpix x y r) t
  refine ⟨t, u, ht, hu, fun x' y' hb' => ?_⟩
  have hcleared : t.HoldsHalf (fbPixelAddr s.cfg x' y') c := holdsHalf_of_fbclr (fbPixelNumber_lt hb') ht
  rw [← hcfg] at hb hb' hcleared ⊢
  split_ifs with heq
  · obtain ⟨rfl, rfl⟩ := Prod.mk.inj heq
    exact (holdsHalf_of_fbpix hb hu).half_eq
  · exact (hcleared.of_fbpix_elsewhere hb hb' heq hu).half_eq

/-- Settles O18: each of the four disjuncts fails one half of the bounds test. -/
theorem fbpixOutOfBoundsIsSilent : Obligations.FbpixOutOfBoundsIsSilent := by
  intro s x y c hout
  have hb : ¬ fbInBounds s.cfg x y := by
    unfold fbInBounds inBounds coord
    omega
  exact ⟨exec_fbpix_of_not_inBounds hb c, if_neg hb⟩

end Sys2Proof.Machine
end

section
/-! SUPPORT. The statements of 41_tile_target.md. First the facts they share: what an in-bounds TPIX leaves at each byte (R71, R77), a word as its
four lanes (R22, R74), the 64 bytes of a tile buffer (R70), and memory after a run of legal words (R30); then the statements. -/

namespace Sys2Proof.Machine

/-! ## The pixel of a TPIX (R71, R72, R74) -/

theorem tileLane_lt (x y : Half) : tileLane x y < 4 := Nat.mod_lt _ (by decide)

/-- A row is two words long, so the lane of a pixel depends on its column alone (R74). -/
theorem tileLane_cast {x y : Half} (h : tileInBounds x y) : (tileLane x y : Int) = x.toInt % 4 := by
  have hcast := tilePixelNumber_cast h
  unfold tileLane
  omega

/-- Memory after an in-bounds TPIX: the pixel's own byte is the index, every other byte is as it was. -/
theorem get_of_tpix {s u : State} {t : BitVec 4} {x y : Half} {v : Byte} (ht : t.toNat < s.cfg.ntiles) (hb : tileInBounds x y)
    (h : exec (.tpix t x y v) s = .next u) (b : Nat) :
    u.mem.get b = if b = s.cfg.tileBase + 64 * t.toNat + tilePixelNumber x y then some v else s.mem.get b := by
  rw [get_exec h, storedByte, ite_some_or]
  exact if_congr ((and_iff_right ht).trans (and_iff_right hb)) rfl rfl

/-- The same for the word the pixel lies in, lane by lane (R74, R77). -/
theorem get_lane_of_tpix {s u : State} {t : BitVec 4} {x y : Half} {v : Byte} (ht : t.toNat < s.cfg.ntiles) (hb : tileInBounds x y)
    (h : exec (.tpix t x y v) s = .next u) (k : Nat) :
    u.mem.get (tileWordAddr s.cfg t x y + k) = if k = tileLane x y then some v else s.mem.get (tileWordAddr s.cfg t x y + k) := by
  rw [get_of_tpix ht hb h, ← tileWordAddr_add_lane]
  exact if_congr Nat.add_left_cancel_iff rfl rfl

/-- The same for the values the four bytes hold, named or not. -/
theorem byteAt_lane_of_tpix {s u : State} {t : BitVec 4} {x y : Half} {v : Byte} (ht : t.toNat < s.cfg.ntiles) (hb : tileInBounds x y)
    (h : exec (.tpix t x y v) s = .next u) (k : Nat) :
    u.byteAt (tileWordAddr s.cfg t x y + k) = if k = tileLane x y then v else s.byteAt (tileWordAddr s.cfg t x y + k) := by
  have hget := get_lane_of_tpix ht hb h k
  obtain ⟨u', hu, -, hboot⟩ := exec_completes (.tpix t x y v) s
  cases hu.symm.trans h
  split_ifs at hget ⊢
  · exact State.byteAt_of_some hget
  · exact State.byteAt_of_get _ hget hboot

/-- On a PTU the read-modify-write leaves the canonical memory that one byte store leaves (R22, R23). -/
theorem readHold_writeHeld_mem_eq_put {s : State} {t : BitVec 4} {x y : Half} (hs : s.Inv) (ht : t.toNat < s.cfg.ntiles)
    (hb : tileInBounds x y) (v : Byte) :
    ((s.readHold (tileWordAddr s.cfg t x y)).writeHeld (tileWordAddr s.cfg t x y) (laneMask (tileShift x y))
      (laneInsert v (tileShift x y))).mem = s.mem.put (s.cfg.tileBase + 64 * t.toNat + tilePixelNumber x y) v := by
  obtain ⟨hv, hm, -, -⟩ := hs
  have hend := tileWordAddr_add_four_le hv ht hb
  have hbyte : s.cfg.tileBase + 64 * t.toNat + tilePixelNumber x y < 2 ^ 32 := by
    have hlane := tileLane_lt x y
    rw [← tileWordAddr_add_lane]
    omega
  refine Memory.ext (Memory.wf_writeLanes _ hm hend) (Memory.wf_put hm hbyte) fun b => ?_
  rw [get_readHold_writeHeld, Memory.get_put]

/-! ## A word as its four lanes (R22) -/

theorem word32_eq_of_lanes {a b : Word32} (h : ∀ k < 4, a.extractLsb' (8 * k) 8 = b.extractLsb' (8 * k) 8) : a = b := by
  refine BitVec.eq_of_getLsbD_eq fun j hj => ?_
  have hbit := congrArg (fun lane => lane.getLsbD (j % 8)) (h (j / 8) (by omega))
  simpa [Nat.mod_lt, Nat.div_add_mod] using hbit

/-- A word one of whose bytes is replaced is the masked word with the byte put in (R71). -/
theorem word_of_byte_replaced {s u : State} {a n : Nat} {v : Byte} (hn : n < 4)
    (h : ∀ k < 4, u.byteAt (a + k) = if k = n then v else s.byteAt (a + k)) :
    u.word a = (s.word a &&& laneMask (n * 8)) ||| laneInsert v (n * 8) := by
  refine word32_eq_of_lanes fun k hk => ?_
  rw [word_lane u a hk, h k hk, BitVec.extractLsb'_or, BitVec.extractLsb'_and, word_lane s a hk, Nat.mul_comm 8 k,
    laneMask_byte n hn k hk, laneInsert_byte v n k hn hk]
  split_ifs
  · rw [BitVec.and_zero, BitVec.zero_or]
  · rw [and_full_mask_byte, BitVec.or_zero]

/-! ## The 64 bytes of a tile buffer (R70) -/

/-- TPIX stores in its own buffer alone (T-P6). -/
theorem storedByte_tpix_outside_buffer {p : Params} {t : BitVec 4} {b : Nat} (x y : Half) (v : Byte)
    (h : ¬ (p.tileBase + 64 * t.toNat ≤ b ∧ b < p.tileBase + 64 * t.toNat + 64)) : storedByte p (.tpix t x y v) b = none := by
  refine storedByte_tpix_eq_none_iff.2 fun ⟨_, hb, he⟩ => h ?_
  have hpixel := tilePixelNumber_lt hb
  omega

/-- Different tile buffers have no byte in common. -/
theorem tile_buffers_disjoint {p : Params} {t t' : BitVec 4} {b : Nat} (hne : t' ≠ t) (hlo : p.tileBase + 64 * t'.toNat ≤ b)
    (hhi : b < p.tileBase + 64 * t'.toNat + 64) : ¬ (p.tileBase + 64 * t.toNat ≤ b ∧ b < p.tileBase + 64 * t.toNat + 64) := by
  have hnum : t'.toNat ≠ t.toNat := fun he => hne (BitVec.eq_of_toNat_eq he)
  omega

/-! ## Memory after a run of legal words (R29, R30) -/

/-- The byte a run of commands leaves at address `b`, the latest store winning; none where none of them stores. `run_legal_words` ties it to
the machine's run. -/
def lastStored (p : Params) (b : Nat) : List Instr → Option Byte
  | [] => none
  | i :: is => (lastStored p b is).or (storedByte p i b)

theorem lastStored_eq_none_iff {p : Params} {b : Nat} {is : List Instr} :
    lastStored p b is = none ↔ ∀ i ∈ is, storedByte p i b = none := by
  induction is with
  | nil => simp [lastStored]
  | cons i is ih => rw [lastStored, Option.or_eq_none_iff, ih, List.forall_mem_cons, and_comm]

/-- The byte left is one that a command of the run stores. -/
theorem exists_stores_of_lastStored_eq_some {p : Params} {b : Nat} {w : Byte} {is : List Instr} (h : lastStored p b is = some w) :
    ∃ i ∈ is, storedByte p i b = some w := by
  induction is with
  | nil => cases h
  | cons i is ih =>
    rcases Option.or_eq_some_iff.1 h with hlater | ⟨-, hi⟩
    · obtain ⟨j, hj, hw⟩ := ih hlater
      exact ⟨j, List.mem_cons_of_mem i hj, hw⟩
    · exact ⟨i, List.mem_cons_self, hi⟩

/-- Where some command of the run stores and all that store there store the same byte, that byte is left. -/
theorem lastStored_eq_some {p : Params} {b : Nat} {v : Byte} {is : List Instr} {i : Instr} (hi : i ∈ is)
    (hv : storedByte p i b = some v) (h : ∀ j ∈ is, ∀ w, storedByte p j b = some w → w = v) : lastStored p b is = some v := by
  cases hlast : lastStored p b is with
  | none => cases (lastStored_eq_none_iff.1 hlast i hi).symm.trans hv
  | some w =>
    obtain ⟨j, hj, hw⟩ := exists_stores_of_lastStored_eq_some hlast
    rw [h j hj w hw]

/-- A command completes and has got one response (R27, R91, R15). -/
theorem exec_completes_answered (i : Instr) (s : State) : ∃ t r, exec i s = .next t ∧ Answered s t r := by
  obtain ⟨m, r, -, h⟩ := exec_answers i s
  exact ⟨_, r, h, rfl, rfl, rfl, rfl, rfl, rfl⟩

/-- As many steps as there are legal words waiting run all of them, and memory is as their stores leave it. -/
theorem run_legal_words (is : List Instr) {s : State} (hv : s.cfg.Valid) (hwf : ∀ i ∈ is, i.wf s.cfg = true) (hl : s.latch = none)
    (hc : s.channel = is.map encode) :
    ∃ u : State, Sys2Proof.core.run is.length s = .next u ∧ inFlight u = [] ∧ u.boot = s.boot ∧
      ∀ b, u.mem.get b = (lastStored s.cfg b is).or (s.mem.get b) := by
  induction is generalizing s with
  | nil => exact ⟨s, rfl, by simp [inFlight, hl, hc], rfl, fun _ => rfl⟩
  | cons i is ih =>
    obtain ⟨hi, his⟩ := List.forall_mem_cons.1 hwf
    have hd := decodeOfEncode s.cfg i hi
    obtain ⟨t, r, ht, ans⟩ := exec_completes_answered i { s with latch := some (encode i), channel := is.map encode }
    have hstep := ((stepRunsTheDecodedCommand s (encode i) i hv hd).2 _ hl hc).trans ht
    have hcfg : t.cfg = s.cfg := ans.cfg
    obtain ⟨u, hrun, hidle, hboot, hget⟩ := ih (hcfg ▸ hv) (hcfg ▸ his) ans.latch ans.channel
    refine ⟨u, (run_succ_of_step (M := Sys2Proof.core) hstep is.length).trans hrun, hidle, hboot.trans ans.boot, fun b => ?_⟩
    rw [hget, hcfg, get_exec ht, lastStored, Option.or_assoc]

/-! ## The sixty-four pixels of a buffer (R76) -/

/-- The TPIX that sets pixel number `i` of buffer `t`. -/
def tpixOfNumber (t : BitVec 4) (v : Nat → Byte) (i : Nat) : Instr := .tpix t (BitVec.ofNat 16 (i % 8)) (BitVec.ofNat 16 (i / 8)) (v i)

theorem tile_pixel_of_number : ∀ i < 64, tileInBounds (BitVec.ofNat 16 (i % 8)) (BitVec.ofNat 16 (i / 8)) ∧
    tilePixelNumber (BitVec.ofNat 16 (i % 8)) (BitVec.ofNat 16 (i / 8)) = i := by decide

/-- It stores its byte at that number in the buffer, and nothing elsewhere. -/
theorem storedByte_tpixOfNumber {p : Params} {t : BitVec 4} (ht : t.toNat < p.ntiles) (v : Nat → Byte) {i : Nat} (hi : i < 64) (b : Nat) :
    storedByte p (tpixOfNumber t v i) b = if b = p.tileBase + 64 * t.toNat + i then some (v i) else none := by
  obtain ⟨hb, hnum⟩ := tile_pixel_of_number i hi
  rw [tpixOfNumber, storedByte, hnum]
  exact if_congr ((and_iff_right ht).trans (and_iff_right hb)) rfl rfl

/-- The sixty-four of them leave each its byte. -/
theorem lastStored_tpixOfNumber {p : Params} {t : BitVec 4} (ht : t.toNat < p.ntiles) (v : Nat → Byte) {i : Nat} (hi : i < 64) :
    lastStored p (p.tileBase + 64 * t.toNat + i) ((List.range 64).map (tpixOfNumber t v)) = some (v i) := by
  refine lastStored_eq_some (List.mem_map_of_mem (List.mem_range.2 hi)) ((storedByte_tpixOfNumber ht v hi _).trans (if_pos rfl)) ?_
  intro _ hmem w hw
  obtain ⟨j, hj, rfl⟩ := List.mem_map.1 hmem
  rw [storedByte_tpixOfNumber ht v (List.mem_range.1 hj)] at hw
  split_ifs at hw with he
  obtain rfl : i = j := Nat.add_left_cancel he
  exact (Option.some.inj hw).symm

/-- They leave every byte outside the buffer alone. -/
theorem lastStored_tpixOfNumber_outside_buffer {p : Params} {t : BitVec 4} (v : Nat → Byte) {b : Nat}
    (h : ¬ (p.tileBase + 64 * t.toNat ≤ b ∧ b < p.tileBase + 64 * t.toNat + 64)) :
    lastStored p b ((List.range 64).map (tpixOfNumber t v)) = none := by
  refine lastStored_eq_none_iff.2 fun _ hmem => ?_
  obtain ⟨i, -, rfl⟩ := List.mem_map.1 hmem
  exact storedByte_tpix_outside_buffer _ _ _ h

/-! ## The statements -/

/-- Settles O23: the pixel's byte is lane i % 4 of the word at wa, and the word with that one byte replaced is R71's masked value. -/
theorem tpixReplacesOneByteLane : Obligations.TpixReplacesOneByteLane := by
  intro s t x y v ht
  refine ⟨decodeOfEncode s.cfg (.tpix t x y v) (decide_eq_true ht), fun i sh wa hx0 hx1 hy0 hy1 hi hsh hwa => ?_⟩
  have hb : tileInBounds x y := ⟨⟨hx0, hx1⟩, hy0, hy1⟩
  obtain rfl : i = tilePixelNumber x y := Int.ofNat_inj.1 (hi.trans (tilePixelNumber_cast hb).symm)
  obtain rfl : sh = tileLane x y * 8 := hsh
  obtain rfl : wa = tileWordAddr s.cfg t x y := hwa
  have hexec := exec_tpix_of_inBounds ht hb v
  have hlane := tileLane_lt x y
  have hbyte := byteAt_lane_of_tpix ht hb hexec
  refine ⟨_, hexec, word_of_byte_replaced hlane fun k _ => hbyte k, ?_, sameOutside_of_get rfl fun b hne => ?_,
    answered_respond _ _ rfl rfl rfl rfl, _, if_pos ⟨ht, hb⟩⟩
  · rw [Nat.mul_comm, word_lane _ _ hlane, hbyte, if_pos rfl]
  · rw [get_of_tpix ht hb hexec, if_neg hne]

/-- Settles O26: the lane is the pixel's own, and it depends on the column alone. -/
theorem tpixInsertsIntoUnspecifiedContents : Obligations.TpixInsertsIntoUnspecifiedContents := by
  intro s t x y v ht hb
  have hexec := exec_tpix_of_inBounds ht hb v
  refine ⟨_, hexec, fun n _ => ?_⟩
  rw [get_lane_of_tpix ht hb hexec, ← tileLane_cast hb]
  exact if_congr Int.ofNat_inj.symm rfl rfl

/-- Settles O27: the two memories hold the same bytes in canonical form, and the answer is the same. -/
theorem tpixEqualsAByteStore : Obligations.TpixEqualsAByteStore := by
  intro s t x y v hs ht hb
  rw [exec_tpix_of_inBounds ht hb, ← readHold_writeHeld_mem_eq_put hs ht hb]
  rfl

/-- Settles O29: what TPIX stores lies in its buffer, and the buffers are disjoint. -/
theorem tpixStaysInItsBuffer : Obligations.TpixStaysInItsBuffer := by
  intro s t x y v
  obtain ⟨u, hu, hout⟩ := exec_sameOutside (s := s) fun _ => storedByte_tpix_outside_buffer x y v
  exact ⟨u, hu, hout, fun t' b hne hlo hhi => (hout b (tile_buffers_disjoint hne hlo hhi)).1⟩

/-- Settles O31: the run of the sixty-four words leaves each pixel the byte its own TPIX stores, whatever the buffer held. -/
theorem sixtyFourTpixSetABuffer : Obligations.SixtyFourTpixSetABuffer := by
  intro s t v hv ht hl hc
  have hwf : ∀ i ∈ (List.range 64).map (tpixOfNumber t v), i.wf s.cfg = true :=
    List.forall_mem_map.2 fun _ _ => decide_eq_true ht
  obtain ⟨u, hrun, hidle, hboot, hget⟩ := run_legal_words _ hv hwf hl (hc.trans (List.map_map ..).symm)
  rw [List.length_map, List.length_range] at hrun
  refine ⟨u, hrun, hidle, fun i hi => ?_, sameOutside_of_get hboot fun b hb => ?_⟩
  · rw [hget, lastStored_tpixOfNumber ht v hi, Option.some_or]
  · rw [hget, lastStored_tpixOfNumber_outside_buffer v hb, Option.none_or]

/-- Settles O24: each of the four disjuncts fails one half of the bounds test. -/
theorem tpixOutOfBoundsIsSilent : Obligations.TpixOutOfBoundsIsSilent := by
  intro s t x y v ht hout
  have hb : ¬ tileInBounds x y := by
    unfold tileInBounds inBounds coord
    omega
  exact ⟨exec_tpix_of_not_inBounds ht hb v, if_neg fun h => hb h.2, decodeOfEncode s.cfg (.tpix t x y v) (decide_eq_true ht)⟩

/-- Settles O25: decoding the word fails step 4 of R43, and `exec` makes the same test. -/
theorem tpixOfAMissingBufferIsIllegal : Obligations.TpixOfAMissingBufferIsIllegal := by
  intro s t x y v ht
  refine ⟨?_, exec_tpix_of_no_buffer (Nat.not_lt.2 ht) x y v⟩
  rw [decode_encode, legalIf_eq_illegal_iff]
  exact decide_eq_false (Nat.not_lt.2 ht)

/-- Settles O30: the word is the command's one encoding, and its value is the packed (8, 8). -/
theorem tsizeReportsEightByEight : Obligations.TsizeReportsEightByEight := by
  refine ⟨fun p w => ?_, fun s => ?_⟩
  · have hword : encode .tsize = 0x5000000000000000#64 := by decide
    rw [decode_eq_legal_iff, hword, Instr.wf, eq_self, and_true, eq_comm]
  · rw [exec_tsize, tileSizeVal_eq]
    rfl

end Sys2Proof.Machine
end

section
/-! SUPPORT. The statements of 42_colour_conversion.md. First a packed colour as the number its three channels give (R81) and its fields read back
(R82), the palette scan as the list's first index of the colour (R84), and the index issued for each answer of the scan (R85); then the statements. -/

namespace Sys2Proof.Machine

/-! ## Packed colours (R81, R82) -/

/-- Two 5-bit fields beside a third: they do not overlap, so R81's `|` is a sum. -/
theorem shiftLeft_or_shiftLeft_or_eq_add {r g : Nat} (b : Nat) (hr : r < 2 ^ 5) (hg : g < 2 ^ 5) :
    b <<< 10 ||| g <<< 5 ||| r = b * 2 ^ 10 + g * 2 ^ 5 + r := by
  have hlow : g <<< 5 + r < 2 ^ 10 := by rw [Nat.shiftLeft_eq]; omega
  rw [Nat.or_assoc, ← Nat.shiftLeft_add_eq_or_of_lt hr, ← Nat.shiftLeft_add_eq_or_of_lt hlow, Nat.shiftLeft_eq, Nat.shiftLeft_eq,
    Nat.add_assoc]

theorem ofNat_shiftLeft_of_lt {x : Nat} (k : Nat) (h : x < 2 ^ 16) : BitVec.ofNat 16 x <<< k = BitVec.ofNat 16 (x <<< k) :=
  congrArg (fun y => BitVec.ofNat 16 (y <<< k)) (Nat.mod_eq_of_lt h)

/-- A colour packs to `w` exactly when its channels are in range and `w` is the number R81 gives. -/
theorem pack15_eq_some_iff {c : Rgb} {w : Half} :
    pack15 c = some w ↔ (channelOk c.r ∧ channelOk c.g ∧ channelOk c.b) ∧ w.toNat = c.b * 2 ^ 10 + c.g * 2 ^ 5 + c.r := by
  rw [pack15, Option.ite_none_right_eq_some, Option.some.injEq]
  refine and_congr_right fun ⟨hr, hg, hb⟩ => ?_
  have hr' : c.r < 2 ^ 5 := Nat.lt_succ_of_le hr
  have hg' : c.g < 2 ^ 5 := Nat.lt_succ_of_le hg
  have hsum : c.b * 2 ^ 10 + c.g * 2 ^ 5 + c.r < 2 ^ 16 := by omega
  rw [ofNat_shiftLeft_of_lt 10 (Nat.lt_of_le_of_lt hb (by decide)), ofNat_shiftLeft_of_lt 5 (Nat.lt_of_le_of_lt hg (by decide)),
    ← BitVec.ofNat_or, ← BitVec.ofNat_or, shiftLeft_or_shiftLeft_or_eq_add c.b hr' hg', ← BitVec.toNat_inj, BitVec.toNat_ofNat,
    Nat.mod_eq_of_lt hsum, eq_comm]

theorem unpack15_eq (w : Half) : unpack15 w = ⟨w.toNat % 2 ^ 5, w.toNat / 2 ^ 5 % 2 ^ 5, w.toNat / 2 ^ 10 % 2 ^ 5⟩ := by
  simp only [unpack15, BitVec.extractLsb'_toNat, Nat.shiftRight_eq_div_pow, Nat.pow_zero, Nat.div_one]

/-- The fields of `b * 2^10 + g * 2^5 + r` are the channels again. -/
theorem unpack15_of_pack15 {c : Rgb} {w : Half} (h : pack15 c = some w) : unpack15 w = c := by
  obtain ⟨⟨hr, hg, hb⟩, hw⟩ := pack15_eq_some_iff.1 h
  rw [unpack15_eq, hw]
  cases c
  simp only [channelOk] at hr hg hb ⊢
  rw [Rgb.mk.injEq]
  omega

/-! ## The palette scan (R84) -/

/-- The scan from `j` on finds the list's first index of the colour, counted from `j`. -/
theorem scanFrom_eq_idxOf? (c : Colour) (j : Nat) (es : List Colour) : scanFrom c j es = (es.idxOf? c).map (j + ·) := by
  induction es generalizing j with
  | nil => rfl
  | cons e es ih =>
    rw [scanFrom, List.idxOf?_cons, ih]
    by_cases h : e = c
    · simp [h]
    · simp [h, Function.comp_def, Nat.add_comm, Nat.add_left_comm]

/-- The library's first index, said of `l[i]?`. -/
theorem idxOf?_eq_some_iff_getElem? {l : List Colour} {c : Colour} {i : Nat} :
    l.idxOf? c = some i ↔ l[i]? = some c ∧ ∀ k < i, l[k]? ≠ some c := by
  rw [List.idxOf?_eq_some_iff]
  constructor
  · rintro ⟨hi, hc, hbefore⟩
    exact ⟨List.getElem?_eq_some_iff.2 ⟨hi, hc⟩, fun k hk h => hbefore k hk (List.getElem?_eq_some_iff.1 h).2⟩
  · rintro ⟨h, hbefore⟩
    obtain ⟨hi, hc⟩ := List.getElem?_eq_some_iff.1 h
    exact ⟨hi, hc, fun k hk hkc => hbefore k hk (List.getElem?_eq_some_iff.2 ⟨hk.trans hi, hkc⟩)⟩

theorem palLookup_eq (pal : Palette) (c : Colour) : palLookup pal c = ((pal.drop 1).idxOf? c).map (1 + ·) := scanFrom_eq_idxOf? c 1 _

theorem palLookup_eq_some_iff {pal : Palette} {c : Colour} {j : Nat} :
    palLookup pal c = some j ↔ 1 ≤ j ∧ pal[j]? = some c ∧ ∀ i, 1 ≤ i → i < j → pal[i]? ≠ some c := by
  simp only [palLookup_eq, Option.map_eq_some_iff, idxOf?_eq_some_iff_getElem?, List.getElem?_drop]
  constructor
  · rintro ⟨k, ⟨hk, hbefore⟩, rfl⟩
    refine ⟨Nat.le_add_right 1 k, hk, fun i hi hlt => ?_⟩
    obtain ⟨m, rfl⟩ := Nat.exists_eq_add_of_le hi
    exact hbefore m (Nat.lt_of_add_lt_add_left hlt)
  · rintro ⟨hj, hc, hbefore⟩
    obtain ⟨k, rfl⟩ := Nat.exists_eq_add_of_le hj
    exact ⟨k, ⟨hc, fun m hm => hbefore _ (Nat.le_add_right 1 m) (Nat.add_lt_add_left hm 1)⟩, rfl⟩

theorem palLookup_eq_none_iff {pal : Palette} {c : Colour} : palLookup pal c = none ↔ ∀ j, 1 ≤ j → pal[j]? ≠ some c := by
  simp only [palLookup_eq, Option.map_eq_none_iff, List.idxOf?_eq_none_iff, List.mem_iff_getElem?, List.getElem?_drop, not_exists]
  refine ⟨fun h j hj => ?_, fun h k => h _ (Nat.le_add_right 1 k)⟩
  obtain ⟨k, rfl⟩ := Nat.exists_eq_add_of_le hj
  exact h k

theorem one_le_of_palLookup {pal : Palette} {c : Colour} {j : Nat} (h : palLookup pal c = some j) : 1 ≤ j :=
  (palLookup_eq_some_iff.1 h).1

theorem palLookup_lt_length {pal : Palette} {c : Colour} {j : Nat} (h : palLookup pal c = some j) : j < pal.length :=
  (List.getElem?_eq_some_iff.1 (palLookup_eq_some_iff.1 h).2.1).1

/-! ## The index issued for a colour (R85, log 29) -/

theorem tileIndex_of_found {pal : Palette} {c : Colour} {j : Nat} (h : palLookup pal c = some j) (policy : AbsentPolicy) :
    tileIndex pal policy c = if j < 256 then some (BitVec.ofNat 8 j) else none := by
  simp only [tileIndex, h]

theorem tileIndex_reject_of_absent {pal : Palette} {c : Colour} (h : palLookup pal c = none) : tileIndex pal .reject c = none := by
  simp only [tileIndex, h]

theorem tileIndex_default_of_absent {pal : Palette} {c : Colour} (h : palLookup pal c = none) (d : Byte) :
    tileIndex pal (.default d) c = some d := by
  simp only [tileIndex, h]

/-- An index that is issued for a colour the palette has is the index itself, not wrapped. -/
theorem toNat_of_tileIndex_of_found {pal : Palette} {policy : AbsentPolicy} {c : Colour} {j : Nat} {b : Byte} (h : palLookup pal c = some j)
    (hb : tileIndex pal policy c = some b) : b.toNat = j := by
  rw [tileIndex_of_found h, Option.ite_none_right_eq_some, Option.some.injEq] at hb
  obtain ⟨hj, rfl⟩ := hb
  exact (BitVec.toNat_ofNat ..).trans (Nat.mod_eq_of_lt hj)

/-! ## The statements -/

/-- Settles O46: the value is R81's number, and two colours with one packed form are both what that form unpacks to. -/
theorem packIsTotalAndInjectiveInRange : Obligations.PackIsTotalAndInjectiveInRange := by
  refine ⟨fun r g b hr hg hb => ?_, fun c d w hc hd => ?_, fun c hout => if_neg (by omega)⟩
  · have hpack : pack15 ⟨r, g, b⟩ = some _ := if_pos ⟨hr, hg, hb⟩
    exact ⟨_, hpack, (pack15_eq_some_iff.1 hpack).2⟩
  · exact (unpack15_of_pack15 hc).symm.trans (unpack15_of_pack15 hd)

/-- Settles O47: the three fields are in range, and together they are the low 15 bits. -/
theorem unpackUndoesPack : Obligations.UnpackUndoesPack := by
  refine ⟨fun c w => unpack15_of_pack15, fun w => ?_⟩
  have hlow : (w &&& 0x7FFF#16).toNat = w.toNat % 2 ^ 15 := Nat.and_two_pow_sub_one_eq_mod w.toNat 15
  rw [pack15_eq_some_iff, unpack15_eq, hlow]
  simp only [channelOk]
  omega

/-- Settles O48: the scan is the library's first index, on the entries from index 1 on. -/
theorem paletteLookupReturnsTheLowestIndex : Obligations.PaletteLookupReturnsTheLowestIndex :=
  fun _ _ => ⟨fun _ => palLookup_eq_some_iff, palLookup_eq_none_iff⟩

/-- Settles O49: an index issued for a colour the palette has is the scan's, which is at least 1; for an absent colour it is the host's own. -/
theorem absentColourIsNotAliasedToZero : Obligations.AbsentColourIsNotAliasedToZero := by
  intro pal policy c
  refine ⟨fun hzero => ?_, tileIndex_reject_of_absent, fun hv j hj => ?_, fun j hj hbig => ?_⟩
  · cases hl : palLookup pal c with
    | some j =>
      have hj : 0 = j := toNat_of_tileIndex_of_found hl hzero
      exact absurd (one_le_of_palLookup hl) (by omega)
    | none =>
      cases policy with
      | reject => exact absurd ((tileIndex_reject_of_absent hl).symm.trans hzero) nofun
      | default d => exact ⟨rfl, congrArg _ (Option.some.inj ((tileIndex_default_of_absent hl d).symm.trans hzero))⟩
  · have hissued := (tileIndex_of_found hj policy).trans (if_pos (Nat.lt_of_lt_of_le (palLookup_lt_length hj) hv.2))
    exact ⟨_, hissued, toNat_of_tileIndex_of_found hj hissued⟩
  · exact (tileIndex_of_found hj policy).trans (if_neg (Nat.not_lt.2 hbig))

end Sys2Proof.Machine
end

section
/-! SUPPORT. The statements of 60_exceptions.md. First the facts they share: what a step and a host action do to the commands in flight, which
words are answered with an error (R90, R91), and what an event around the PTU does to the phase, to a halt and to an idle PTU (R95 to R101);
then the statements. -/

namespace Sys2Proof.Machine

/-! ## The commands in flight after a step and after a host action -/

/-- A step leaves an idle PTU as it is, or completes the oldest command in flight with its response. -/
theorem step_inFlight {s t : State} (h : step s = .next t) :
    (inFlight s = [] ∧ t = s) ∨ ∃ w, inFlight s = w :: inFlight t ∧ t.responses = s.responses ++ [responseTo s.cfg w] := by
  obtain ⟨hv, -⟩ := step_next h
  cases hf : inFlight s with
  | nil =>
    cases (step_of_idle hv hf).symm.trans h
    exact .inl ⟨rfl, rfl⟩
  | cons w ws =>
    obtain ⟨u, hu, ans⟩ := step_answers_oldest hv hf
    cases hu.symm.trans h
    exact .inr ⟨w, by rw [inFlight_of_answered ans], ans.responses⟩

theorem takeResponse_inFlight {s t : State} {r : Response} (h : takeResponse s = some (r, t)) : inFlight t = inFlight s := by
  obtain ⟨rs, -, rfl⟩ := takeResponse_eq_some_iff.1 h
  rfl

theorem hostWrite_inFlight {s t : State} {w : AccessWidth} {a : Nat} {v : Word32} (h : hostWrite w a v s = .next t) :
    inFlight t = inFlight s := by
  obtain ⟨r, -, -, rfl⟩ := hostWrite_next h
  rfl

/-! ## Which words are answered with an error (R90, R91) -/

theorem responseTo_err_eq_false_iff {p : Params} {w : Command} : (responseTo p w).err = false ↔ decode p w ≠ .illegal := by
  unfold responseTo
  cases decode p w with
  | illegal => simp
  | legal i => cases i <;> simp

/-- Responses appended to a clean state keep it clean exactly when none of them is an error. -/
theorem State.Clean.append_iff {s t : State} (hs : s.Clean) {rs : List Response} (h : t.responses = s.responses ++ rs) :
    t.Clean ↔ ∀ r ∈ rs, r.err = false := by
  rw [State.Clean, h, List.forall_mem_append]
  exact and_iff_right hs

/-! ## What an event around the PTU does (R95 to R101) -/

namespace Platform

/-- Phase and halt stay as they are, or: the loop goes to Idle with nothing in flight, an acknowledgement begins a frame, a fatal error strikes
with nothing in flight, or a power cycle leads back to the start. -/
theorem next_phase_and_halt {e : FrameEvent} {q r : Platform} (h : q.next e = some r) :
    (r.phase = q.phase ∧ r.halted = q.halted) ∨ (inFlight q.ptu = [] ∧ r = { q with phase := .idle }) ∨
    r = { q with pending := false, phase := .active } ∨ (inFlight q.ptu = [] ∧ r = { q with halted := true }) ∨
    (e = .powerCycle ∧ r = Platform.start (powerCycle q.ptu)) := by
  cases e with
  | enableInterrupt =>
    obtain ⟨⟨-, -, hf⟩, rfl⟩ := next_enableInterrupt_iff.1 h
    exact .inr (.inl ⟨hf, rfl⟩)
  | vblank =>
    obtain rfl := next_vblank_iff.1 h
    exact .inl ⟨rfl, rfl⟩
  | acknowledge =>
    obtain ⟨-, rfl⟩ := next_acknowledge_iff.1 h
    cases hhalt : q.halted with
    | true => exact .inl ⟨rfl, rfl⟩
    | false => exact .inr (.inr (.inl (by simp)))
  | issue w =>
    obtain ⟨-, rfl⟩ := next_issue_iff.1 h
    exact .inl ⟨rfl, rfl⟩
  | write w a v =>
    obtain ⟨-, t, -, rfl⟩ := next_write_iff.1 h
    exact .inl ⟨rfl, rfl⟩
  | take =>
    obtain ⟨-, p, t, -, rfl⟩ := next_take_iff.1 h
    exact .inl ⟨rfl, rfl⟩
  | frameDone =>
    obtain ⟨⟨-, -, hf⟩, rfl⟩ := next_frameDone_iff.1 h
    exact .inr (.inl ⟨hf, rfl⟩)
  | fatal =>
    obtain ⟨hf, rfl⟩ := next_fatal_iff.1 h
    exact .inr (.inr (.inr (.inl ⟨hf, rfl⟩)))
  | powerCycle => exact .inr (.inr (.inr (.inr ⟨rfl, next_powerCycle_iff.1 h⟩)))
  | ptuStep =>
    obtain ⟨t, -, rfl⟩ := next_ptuStep_iff.1 h
    exact .inl ⟨rfl, rfl⟩

/-- Nothing but a power cycle cancels a command: what each change of the PTU in
`interruptContextNeverDraws` does to the commands in flight. -/
theorem next_inFlight {e : FrameEvent} {q r : Platform} (he : e ≠ .powerCycle) (h : q.next e = some r) :
    inFlight r.ptu = inFlight q.ptu ∨ (∃ w, inFlight r.ptu = inFlight q.ptu ++ [w]) ∨
      ∃ w, inFlight q.ptu = w :: inFlight r.ptu ∧ r.ptu.responses = q.ptu.responses ++ [responseTo q.ptu.cfg w] := by
  obtain ⟨hptu, -⟩ := interruptContextNeverDraws e q r h
  rcases hptu with hsame | ⟨w, -, -, -, hissue⟩ | ⟨w, a, v, -, -, -, hwrite⟩ | ⟨p, -, -, -, htake⟩ | ⟨-, hstep⟩ | ⟨hpc, -⟩
  · exact .inl (by rw [hsame])
  · exact .inr (.inl ⟨w, by rw [hissue, hostIssue_inFlight]⟩)
  · exact .inl (hostWrite_inFlight hwrite)
  · exact .inl (takeResponse_inFlight htake)
  · rcases step_inFlight hstep with ⟨-, hidle⟩ | hanswered
    · exact .inl (by rw [hidle])
    · exact .inr (.inr hanswered)
  · exact absurd hpc he

/-- In Idle and after a halt the foreground does nothing to the PTU, so one that is idle stays as it is until a power cycle. -/
theorem next_ptu_of_foreground_waits {e : FrameEvent} {q r : Platform} (hwait : q.phase = .idle ∨ q.halted = true)
    (hf : inFlight q.ptu = []) (h : q.next e = some r) : r.ptu = q.ptu ∨ (e = .powerCycle ∧ r.ptu = powerCycle q.ptu) := by
  have hbarred : ¬ (q.phase ≠ .idle ∧ q.halted = false) := fun ⟨hphase, hhalt⟩ => by simp [hphase, hhalt] at hwait
  obtain ⟨hptu, -⟩ := interruptContextNeverDraws e q r h
  rcases hptu with hsame | ⟨w, -, hphase, hhalt, -⟩ | ⟨w, a, v, -, hphase, hhalt, -⟩ | ⟨p, -, hphase, hhalt, -⟩ | ⟨-, hstep⟩ | hpc
  · exact .inl hsame
  · exact absurd ⟨hphase, hhalt⟩ hbarred
  · exact absurd ⟨hphase, hhalt⟩ hbarred
  · exact absurd ⟨hphase, hhalt⟩ hbarred
  · rcases step_inFlight hstep with ⟨-, hidle⟩ | ⟨w, hw, -⟩
    · exact .inl hidle
    · simp [hf] at hw
  · exact .inr hpc

/-- So nothing is in flight after the event either. -/
theorem next_inFlight_of_foreground_waits {e : FrameEvent} {q r : Platform} (hwait : q.phase = .idle ∨ q.halted = true)
    (hf : inFlight q.ptu = []) (h : q.next e = some r) : inFlight r.ptu = [] := by
  rcases next_ptu_of_foreground_waits hwait hf h with hsame | ⟨-, hpc⟩
  · rw [hsame, hf]
  · rw [hpc]; rfl

end Platform

/-! ## The statements -/

/-- Settles O41: the run appends the response to each word in flight, and an error is the response to an Illegal word alone. -/
theorem runIsCleanIffNoWordIsIllegal : Obligations.RunIsCleanIffNoWordIsIllegal := by
  intro s t hv hs h
  obtain ⟨u, hu, hresp, -, -⟩ := run_answers_inFlight (inFlight s) hv rfl
  cases hu.symm.trans h
  rw [hs.append_iff hresp, List.forall_mem_map]
  simp only [responseTo_err_eq_false_iff]

/-- Settles O53: Idle is entered with nothing in flight, and while it lasts nothing is issued. -/
theorem nothingIsInFlightWhileIdle : Obligations.NothingIsInFlightWhileIdle := by
  intro e q r hq h hr
  rcases Platform.next_phase_and_halt h with ⟨hphase, -⟩ | ⟨hf, rfl⟩ | rfl | ⟨hf, rfl⟩ | ⟨-, rfl⟩
  · have hidle : q.phase = .idle := hphase.symm.trans hr
    exact Platform.next_inFlight_of_foreground_waits (.inl hidle) (hq hidle) h
  · exact hf
  · cases hr
  · exact hf
  · cases hr

/-- Settles O54: no other event leads to the set-up or ends a halt, and none takes a command away unanswered. -/
theorem onlyAPowerCycleTearsDown : Obligations.OnlyAPowerCycleTearsDown := by
  refine ⟨fun e q r he h => ?_, fun q => ⟨rfl, rfl, rfl⟩⟩
  rw [← and_assoc]
  refine ⟨?_, Platform.next_inFlight he h⟩
  rcases Platform.next_phase_and_halt h with ⟨hphase, hhalt⟩ | ⟨-, rfl⟩ | rfl | ⟨-, rfl⟩ | ⟨hpc, -⟩
  · rw [hphase, hhalt]
    exact ⟨id, id⟩
  · exact ⟨fun _ => nofun, id⟩
  · exact ⟨fun _ => nofun, id⟩
  · exact ⟨id, fun _ => rfl⟩
  · exact absurd hpc he

/-- Settles O55: a halt begins with nothing in flight, and after it the foreground issues, writes and takes nothing. -/
theorem aHaltLeavesThePtuIdle : Obligations.AHaltLeavesThePtuIdle := by
  intro e q r hq h
  refine ⟨fun hr => ?_, fun hhalt he => ?_, fun he => ?_⟩
  · rcases Platform.next_phase_and_halt h with ⟨-, hhalt⟩ | ⟨hf, rfl⟩ | rfl | ⟨hf, rfl⟩ | ⟨-, rfl⟩
    · have hhalted : q.halted = true := hhalt.symm.trans hr
      exact Platform.next_inFlight_of_foreground_waits (.inr hhalted) (hq hhalted) h
    · exact hf
    · exact hq hr
    · exact hf
    · rfl
  · exact (Platform.next_ptu_of_foreground_waits (.inr hhalt) (hq hhalt) h).resolve_right fun ⟨hpc, _⟩ => he hpc
  · subst he
    obtain ⟨-, rfl⟩ := Platform.next_fatal_iff.1 h
    exact ⟨rfl, rfl⟩

/-- Settles O2: acceptance of the latched or the oldest waiting word, then R90's response to it. -/
theorem illegalWordIsReportedAndChangesNothing : Obligations.IllegalWordIsReportedAndChangesNothing := fun _ _ hv hd =>
  ⟨fun hl => (step_of_accept hv (State.accept_latched hl)).trans (runCommand_of_illegal hd),
    fun _ hl hc => (step_of_accept hv (State.accept_waiting hl hc)).trans (runCommand_of_illegal hd)⟩

end Sys2Proof.Machine
end

section
/-! SUPPORT. The statements of 70_reset_and_hazards.md. First the facts they share: the step of an idle PTU for which the host has issued one word
(R14), the coordinate fields of a point in the 16-bit range and its place in a surface (R42, R119), and the step after a point is drawn on either
target (R119, log 25); then the statements. -/

namespace Sys2Proof.Machine

/-! ## One word issued to an idle PTU (R14, R48) -/

theorem step_hostIssue_of_idle {s : State} (hv : s.cfg.Valid) (hf : inFlight s = []) (w : Command) :
    step (hostIssue w s) = runCommand w { s with latch := some w } := by
  obtain ⟨hl, hc⟩ : s.latch = none ∧ s.channel = [] := by simpa [inFlight] using hf
  have hwait : (hostIssue w s).channel = w :: s.channel := by simp [hc]
  exact step_of_accept hv (State.accept_waiting hl hwait)

theorem step_hostIssue_encode {s : State} (hv : s.cfg.Valid) (hf : inFlight s = []) (i : Instr) (hi : i.wf s.cfg = true) :
    step (hostIssue (encode i) s) = exec i { s with latch := some (encode i) } :=
  (step_hostIssue_of_idle hv hf _).trans (runCommand_of_legal (decodeOfEncode s.cfg i hi))

/-! ## Points in the 16-bit range and in a surface (R42, R119) -/

/-- A point of a surface that a PTU can have is in the 16-bit range, so for a point outside the range nothing is lost (R119). -/
theorem fitsCoord_of_inside {w h : Nat} {x y : Int} (hw : w ≤ 32767) (hh : h ≤ 32767) (hin : 0 ≤ x ∧ x < w ∧ 0 ≤ y ∧ y < h) :
    fitsCoord x ∧ fitsCoord y := by
  unfold fitsCoord
  omega

/-- The bounds test on the fields is the one on the integers: the fields of a point in the range hold it exactly. -/
theorem inBounds_ofInt_iff {x y : Int} (hfit : fitsCoord x ∧ fitsCoord y) (w h : Nat) :
    inBounds w h (BitVec.ofInt 16 x) (BitVec.ofInt 16 y) ↔ 0 ≤ x ∧ x < w ∧ 0 ≤ y ∧ y < h := by
  rw [inBounds, coord, coord, toInt_ofInt_of_inRange hfit.1, toInt_ofInt_of_inRange hfit.2, and_assoc]

theorem fbPixelAddr_ofInt {p : Params} {x y : Int} (hfit : fitsCoord x ∧ fitsCoord y)
    (hb : fbInBounds p (BitVec.ofInt 16 x) (BitVec.ofInt 16 y)) :
    fbPixelAddr p (BitVec.ofInt 16 x) (BitVec.ofInt 16 y) = p.fbBase + 2 * (y * p.fbW + x).toNat := by
  have hk := fbPixelNumber_cast hb
  rw [toInt_ofInt_of_inRange hfit.1, toInt_ofInt_of_inRange hfit.2] at hk
  rw [← hk, Int.toNat_natCast, fbPixelAddr, fbAddr]

theorem tilePixelNumber_ofInt {x y : Int} (hfit : fitsCoord x ∧ fitsCoord y)
    (hb : tileInBounds (BitVec.ofInt 16 x) (BitVec.ofInt 16 y)) :
    tilePixelNumber (BitVec.ofInt 16 x) (BitVec.ofInt 16 y) = (x + 8 * y).toNat := by
  have hi := tilePixelNumber_cast hb
  rw [toInt_ofInt_of_inRange hfit.1, toInt_ofInt_of_inRange hfit.2] at hi
  omega

/-! ## Drawing one point (R119, log 25) -/

theorem hostDrawFb_of_fits {x y : Int} (hfit : fitsCoord x ∧ fitsCoord y) (c : Half) (s : State) :
    hostDrawFb x y c s = hostIssue (encode (.fbpix (BitVec.ofInt 16 x) (BitVec.ofInt 16 y) c)) s := if_pos hfit

theorem hostDrawFb_of_not_fits {x y : Int} (hfit : ¬ (fitsCoord x ∧ fitsCoord y)) (c : Half) (s : State) :
    hostDrawFb x y c s = s := if_neg hfit

theorem hostDrawTile_of_fits {x y : Int} (hfit : fitsCoord x ∧ fitsCoord y) (n : BitVec 4) (v : Byte) (s : State) :
    hostDrawTile n x y v s = hostIssue (encode (.tpix n (BitVec.ofInt 16 x) (BitVec.ofInt 16 y) v)) s := if_pos hfit

theorem hostDrawTile_of_not_fits {x y : Int} (hfit : ¬ (fitsCoord x ∧ fitsCoord y)) (n : BitVec 4) (v : Byte) (s : State) :
    hostDrawTile n x y v s = s := if_neg hfit

theorem step_hostDrawFb_inside {s : State} {x y : Int} (hv : s.cfg.Valid) (hf : inFlight s = [])
    (hin : 0 ≤ x ∧ x < s.cfg.fbW ∧ 0 ≤ y ∧ y < s.cfg.fbH) (c : Half) :
    ∃ t, step (hostDrawFb x y c s) = .next t ∧ t.half (s.cfg.fbBase + 2 * (y * s.cfg.fbW + x).toNat) = c ∧
      SameOutside s t (fun b => b = s.cfg.fbBase + 2 * (y * s.cfg.fbW + x).toNat ∨
        b = s.cfg.fbBase + 2 * (y * s.cfg.fbW + x).toNat + 1) := by
  have hfit := fitsCoord_of_inside (fbW_le_of_valid hv) (fbH_le_of_valid hv) hin
  have hb : fbInBounds s.cfg (BitVec.ofInt 16 x) (BitVec.ofInt 16 y) := (inBounds_ofInt_iff hfit _ _).2 hin
  have ⟨⟨hx0, hx1⟩, hy0, hy1⟩ := hb
  rw [hostDrawFb_of_fits hfit, step_hostIssue_encode hv hf _ rfl, ← fbPixelAddr_ofInt hfit hb]
  obtain ⟨t, ht, hhalf, -, -, hout, -, -⟩ :=
    (fbpixStoresOneHalfword { s with latch := some (encode (.fbpix (BitVec.ofInt 16 x) (BitVec.ofInt 16 y) c)) } _ _ c).2 _
      hx0 hx1 hy0 hy1 (fbPixelAddr_cast hb)
  exact ⟨t, ht, hhalf, hout⟩

theorem step_hostDrawFb_outside {s : State} {x y : Int} (hv : s.cfg.Valid) (hf : inFlight s = [])
    (hout : ¬ (0 ≤ x ∧ x < s.cfg.fbW ∧ 0 ≤ y ∧ y < s.cfg.fbH)) (c : Half) :
    ∃ t, step (hostDrawFb x y c s) = .next t ∧ SameMemory s t := by
  by_cases hfit : fitsCoord x ∧ fitsCoord y
  · have hb : ¬ fbInBounds s.cfg (BitVec.ofInt 16 x) (BitVec.ofInt 16 y) := mt (inBounds_ofInt_iff hfit _ _).1 hout
    rw [hostDrawFb_of_fits hfit, step_hostIssue_encode hv hf _ rfl]
    exact ⟨_, exec_fbpix_of_not_inBounds hb c, rfl⟩
  · rw [hostDrawFb_of_not_fits hfit]
    exact ⟨s, step_of_idle hv hf, rfl⟩

theorem step_hostDrawTile_inside {s : State} {n : BitVec 4} {x y : Int} (hv : s.cfg.Valid) (hf : inFlight s = [])
    (hin : n.toNat < s.cfg.ntiles ∧ 0 ≤ x ∧ x < 8 ∧ 0 ≤ y ∧ y < 8) (v : Byte) :
    ∃ t, step (hostDrawTile n x y v s) = .next t ∧
      t.mem.get (s.cfg.tileBase + 64 * n.toNat + (x + 8 * y).toNat) = some v ∧
      SameOutside s t (fun b => b = s.cfg.tileBase + 64 * n.toNat + (x + 8 * y).toNat) := by
  obtain ⟨hn, hxy⟩ := hin
  have hfit : fitsCoord x ∧ fitsCoord y := fitsCoord_of_inside (w := 8) (h := 8) (by decide) (by decide) hxy
  have hb : tileInBounds (BitVec.ofInt 16 x) (BitVec.ofInt 16 y) := (inBounds_ofInt_iff hfit 8 8).2 hxy
  rw [hostDrawTile_of_fits hfit, step_hostIssue_encode hv hf (.tpix _ _ _ _) (decide_eq_true hn), ← tilePixelNumber_ofInt hfit hb]
  obtain ⟨t, ht, -, hboot⟩ := exec_completes (.tpix n (BitVec.ofInt 16 x) (BitVec.ofInt 16 y) v)
    { s with latch := some (encode (.tpix n (BitVec.ofInt 16 x) (BitVec.ofInt 16 y) v)) }
  have hget := get_of_tpix hn hb ht
  exact ⟨t, ht, (hget _).trans (if_pos rfl), sameOutside_of_get hboot fun b hne => (hget b).trans (if_neg hne)⟩

/-- Outside the tile, or on a buffer that does not exist (R73: the word is then Illegal). -/
theorem step_hostDrawTile_outside {s : State} {n : BitVec 4} {x y : Int} (hv : s.cfg.Valid) (hf : inFlight s = [])
    (hout : ¬ (n.toNat < s.cfg.ntiles ∧ 0 ≤ x ∧ x < 8 ∧ 0 ≤ y ∧ y < 8)) (v : Byte) :
    ∃ t, step (hostDrawTile n x y v s) = .next t ∧ SameMemory s t := by
  by_cases hfit : fitsCoord x ∧ fitsCoord y
  · rw [hostDrawTile_of_fits hfit]
    by_cases hn : n.toNat < s.cfg.ntiles
    · have hb : ¬ tileInBounds (BitVec.ofInt 16 x) (BitVec.ofInt 16 y) := fun hb =>
        hout ⟨hn, (inBounds_ofInt_iff hfit 8 8).1 hb⟩
      rw [step_hostIssue_encode hv hf (.tpix _ _ _ _) (decide_eq_true hn)]
      exact ⟨_, exec_tpix_of_not_inBounds hn hb v, rfl⟩
    · obtain ⟨hill, -⟩ := tpixOfAMissingBufferIsIllegal s n (BitVec.ofInt 16 x) (BitVec.ofInt 16 y) v (Nat.not_lt.1 hn)
      rw [step_hostIssue_of_idle hv hf]
      exact ⟨_, runCommand_of_illegal hill, rfl⟩
  · rw [hostDrawTile_of_not_fits hfit]
    exact ⟨s, step_of_idle hv hf, rfl⟩

/-! ## The statements -/

/-- Settles O45: a point of the surface is in the 16-bit range and its fields hold it exactly; any other point is either not issued or fails the
bounds test, and the word for a missing tile buffer is Illegal. -/
theorem wideCoordinatesAreClipped : Obligations.WideCoordinatesAreClipped := by
  refine ⟨fun s x y hout => ?_, fun s n x y v hv hf => ?_, fun s x y c hv hf => ?_⟩
  · exact ⟨fun c => hostDrawFb_of_not_fits hout c s, fun n v => hostDrawTile_of_not_fits hout n v s⟩
  · by_cases hin : n.toNat < s.cfg.ntiles ∧ 0 ≤ x ∧ x < 8 ∧ 0 ≤ y ∧ y < 8
    · obtain ⟨t, ht, hdrawn⟩ := step_hostDrawTile_inside hv hf hin v
      exact ⟨t, ht, fun _ => hdrawn, fun hout => absurd hin hout⟩
    · obtain ⟨t, ht, hsame⟩ := step_hostDrawTile_outside hv hf hin v
      exact ⟨t, ht, fun h => absurd h hin, fun _ => hsame⟩
  · by_cases hin : 0 ≤ x ∧ x < s.cfg.fbW ∧ 0 ≤ y ∧ y < s.cfg.fbH
    · obtain ⟨t, ht, hdrawn⟩ := step_hostDrawFb_inside hv hf hin c
      exact ⟨t, ht, fun _ => hdrawn, fun hout => absurd hin hout⟩
    · obtain ⟨t, ht, hsame⟩ := step_hostDrawFb_outside hv hf hin c
      exact ⟨t, ht, fun h => absurd h hin, fun _ => hsame⟩

/-- Settles O3: with nothing in flight there is no word to accept. -/
theorem idlePtuDoesNothing : Obligations.IdlePtuDoesNothing := fun _ => step_of_idle

/-- Settles O7: a power-cycle leads to the reset state of the next power-up number, which lists no byte and has nothing in flight. -/
theorem powerCycleAbandonsWhatIsInFlight : Obligations.PowerCycleAbandonsWhatIsInFlight := fun s =>
  ⟨powerCycle_latch s, powerCycle_held s, powerCycle_responses s, rfl, powerCycle_cfg s,
    fun a => (resetGivesNoByteANamedValue s.cfg (s.boot + 1) a).1, fun a => (resetGivesNoByteANamedValue s.cfg (s.boot + 1) a).2,
    fun hv => step_of_idle (s := powerCycle s) hv rfl⟩

/-- Settles O8: a reset state holds no byte, no word and no response, and REF is a PTU. -/
theorem resetMeetsTheInvariant : Obligations.ResetMeetsTheInvariant :=
  ⟨resetWith_inv (by decide) 0, fun _ boot hv => resetWith_inv hv boot⟩

end Sys2Proof.Machine
end

section
/-! SUPPORT. Two statements that stand between the families: TPIX in either order (41_tile_target.md section 5) and the printed words
(30_encoding.md section 7). First the facts they share: when two legal commands may change places, and that different pixels of the tile buffers
are different bytes; then the statements. -/

namespace Sys2Proof.Machine

/-! ## Commands in either order (R29, R30) -/

/-- Everything but memory after a command is decided by the state before it and the response. -/
theorem Answered.eq_update {s t : State} {r : Response} (h : Answered s t r) :
    t = { s with mem := t.mem, latch := none, held := none, responses := s.responses ++ [r] } := by
  obtain ⟨hcfg, hchannel, hboot, hlatch, hheld, hresp⟩ := h
  rw [← hcfg, ← hchannel, ← hboot, ← hlatch, ← hheld, ← hresp]

/-- Two states reached by two commands, each answered with the same response, differ in memory at most. -/
theorem eq_of_answered_twice {s a b u u' : State} {r : Response} (ha : Answered s a r) (hu : Answered a u r) (hb : Answered s b r)
    (hu' : Answered b u' r) (hmem : u.mem = u'.mem) : u = u' := by
  refine hu.eq_update.trans (Eq.trans ?_ hu'.eq_update.symm)
  rw [hmem, ha.cfg, hb.cfg, ha.channel, hb.channel, ha.boot, hb.boot, ha.responses, hb.responses]

/-- A legal command, run in any state of the PTU, is answered as its own word is. -/
theorem exec_answered_of_wf {p : Params} {i : Instr} {s t : State} (hv : p.Valid) (hi : i.wf p = true) (hcfg : s.cfg = p)
    (h : exec i s = .next t) : Answered s t (responseTo p (encode i)) := by
  subst hcfg
  exact exec_answered hv (decodeOfEncode s.cfg i hi) h

/-- Memory after two commands that store no byte in common does not depend on their order. -/
theorem mem_exec_comm {s a b u u' : State} {i j : Instr} (hs : s.Inv)
    (hdisj : ∀ c, storedByte s.cfg i c = none ∨ storedByte s.cfg j c = none) (ha : exec i s = .next a) (hu : exec j a = .next u)
    (hb : exec j s = .next b) (hu' : exec i b = .next u') (hacfg : a.cfg = s.cfg) (hbcfg : b.cfg = s.cfg) : u.mem = u'.mem := by
  obtain ⟨hv, hm, -, -⟩ := hs
  refine Memory.ext (exec_keeps_wf (hacfg ▸ hv) (exec_keeps_wf hv hm ha) hu) (exec_keeps_wf (hbcfg ▸ hv) (exec_keeps_wf hv hm hb) hu')
    fun c => ?_
  rw [get_exec hu, get_exec ha, get_exec hu', get_exec hb, hacfg, hbcfg]
  rcases hdisj c with hi | hj
  · rw [hi, Option.none_or, Option.none_or]
  · rw [hj, Option.none_or, Option.none_or]

/-- Two legal commands with the same response that store no byte in common may change places: the resulting states are the same. -/
theorem exec_comm {s : State} {i j : Instr} (hs : s.Inv) (hi : i.wf s.cfg = true) (hj : j.wf s.cfg = true)
    (hresp : responseTo s.cfg (encode i) = responseTo s.cfg (encode j))
    (hdisj : ∀ c, storedByte s.cfg i c = none ∨ storedByte s.cfg j c = none) :
    ∃ a b u, exec i s = .next a ∧ exec j a = .next u ∧ exec j s = .next b ∧ exec i b = .next u := by
  have hv : s.cfg.Valid := hs.1
  obtain ⟨a, ha, hacfg, -⟩ := exec_completes i s
  obtain ⟨u, hu, -, -⟩ := exec_completes j a
  obtain ⟨b, hb, hbcfg, -⟩ := exec_completes j s
  obtain ⟨u', hu', -, -⟩ := exec_completes i b
  have huu' : u = u' := eq_of_answered_twice (hresp ▸ exec_answered_of_wf hv hi rfl ha) (exec_answered_of_wf hv hj hacfg hu)
    (exec_answered_of_wf hv hj rfl hb) (hresp ▸ exec_answered_of_wf hv hi hbcfg hu') (mem_exec_comm hs hdisj ha hu hb hu' hacfg hbcfg)
  exact ⟨a, b, u, ha, hu, hb, huu' ▸ hu'⟩

/-! ## Different pixels are different bytes (R70, R71) -/

theorem tilePixelNumber_inj {x y x' y' : Half} (h : tileInBounds x y) (h' : tileInBounds x' y')
    (he : tilePixelNumber x y = tilePixelNumber x' y') : x = x' ∧ y = y' := by
  have hnum := tilePixelNumber_cast h
  have hnum' := tilePixelNumber_cast h'
  unfold tileInBounds inBounds coord at h h'
  exact ⟨BitVec.eq_of_toInt_eq (by omega), BitVec.eq_of_toInt_eq (by omega)⟩

/-- Two TPIX to different pixels store no byte in common: a buffer is 64 bytes long and a pixel number is below 64 (T-P4, T-P6). -/
theorem storedByte_tpix_disjoint {p : Params} {t t' : BitVec 4} {x y x' y' : Half} (hne : (t, x, y) ≠ (t', x', y')) (v v' : Byte) (c : Nat) :
    storedByte p (.tpix t x y v) c = none ∨ storedByte p (.tpix t' x' y' v') c = none := by
  rw [storedByte_tpix_eq_none_iff, storedByte_tpix_eq_none_iff, ← not_and_or]
  rintro ⟨⟨-, hb, hc⟩, -, hb', hc'⟩
  have hlt := tilePixelNumber_lt hb
  have hlt' := tilePixelNumber_lt hb'
  obtain rfl : t = t' := BitVec.eq_of_toNat_eq (by omega)
  obtain ⟨rfl, rfl⟩ := tilePixelNumber_inj hb hb' (by omega)
  exact hne rfl

theorem responseTo_encode_tpix {p : Params} {t : BitVec 4} (ht : t.toNat < p.ntiles) (x y : Half) (v : Byte) :
    responseTo p (encode (.tpix t x y v)) = ⟨false, 0#32⟩ := by
  rw [responseTo, decodeOfEncode p (.tpix t x y v) (decide_eq_true ht)]

/-! ## The statements -/

/-- Settles O28: the two store no byte in common, in bounds or not, and both answer {0, 0}. -/
theorem tpixOfDifferentPixelsCommute : Obligations.TpixOfDifferentPixelsCommute := by
  intro s t t' x y x' y' v v' hs ht ht' hne
  exact exec_comm hs (decide_eq_true ht) (decide_eq_true ht')
    ((responseTo_encode_tpix ht x y v).trans (responseTo_encode_tpix ht' x' y' v').symm) (storedByte_tpix_disjoint hne v v')

/-- Settles O12: each word evaluated. -/
theorem printedWordsDecode : Obligations.PrintedWordsDecode := by
  unfold Obligations.PrintedWordsDecode
  decide

end Sys2Proof.Machine
end
